-- ==== Sys2Proof/Word.lean ====
section
/-! DEFINITION. The word types of the VAG-ENC core: the items of the four channels (spec/20_memory.md rule R50) and
the widths of its registers (spec/10_state.md rules R21 to R28). A type is a bit vector where the spec gives a register or
a channel item a width; the exact arithmetic between registers is on `Int` and `Nat` (spec/00_scope.md rule R9). -/

namespace Sys2Proof

/-- One command word of the channel CMD: `CMD_W` = 64 bits (R50, R70). -/
abbrev CmdWord := BitVec 64

/-- One response word of the channel RSP: `RSP_W` = 32 bits (R50, R75). -/
abbrev RspWord := BitVec 32

/-- One PCM sample of the channel SMP: 16 bits, two's complement (R50, R51). -/
abbrev Sample := BitVec 16

/-- One byte of the channel OUT (R50, R52). -/
abbrev Byte := BitVec 8

/-- One 4-bit code (R140). -/
abbrev Nibble := BitVec 4

/-- A reconstruction history register: `HIST_W` = 40 bits, two's complement, in units of 2^-16 (R23). -/
abbrev HistWord := BitVec 40

/-- The sample count of a PKT and the register REMAIN: `NS_W` = 24 bits (R25, R72). -/
abbrev SampleCount := BitVec 24

/-- A loop operand: `LOOP_W` = 16 bits (R24, R72). -/
abbrev LoopIdx := BitVec 16

/-- The block index BIDX: `BIDX_W` = 20 bits (R26). -/
abbrev BlockIdx := BitVec 20

/-- The byte count NBYTES: 31 bits (R27). -/
abbrev ByteCount := BitVec 31

/-- A predictor index, 0..4 (R13, R100). -/
abbrev PredIdx := Fin 5

end Sys2Proof
end

