-- ==== Sys2Proof/Syntax.lean ====
section
/-! DEFINITION. The command set (spec/30_encoding.md rule R70): one constructor per row of spec/opcode_table.json, with the
operands of rules R72 and R73; and the fields a command word is made of (the table of R70), over which WellFormed.lean
says which words are commands. -/

namespace Sys2Proof

/-- The two commands. Their operands have the widths of R70, so no value of this type is out of its encoding's range. -/
inductive Instr where
  /-- PKT `nsamples, loop_flag, loop_start, loop_end`: encode one packet (R72, R160). -/
  | pkt (loopFlag : Bool) (nsamples : SampleCount) (loopEnd : LoopIdx) (loopStart : LoopIdx)
  /-- END `loop_flag`: close the stream (R73, R170). -/
  | endStream (loopFlag : Bool)
  deriving DecidableEq, Repr

/-- The six fields of the format CMD64, from bit 63 down (R70). -/
structure CmdFields where
  op : BitVec 4
  rsv : BitVec 3
  loopFlag : BitVec 1
  nsamples : SampleCount
  loopEnd : LoopIdx
  loopStart : LoopIdx
  deriving DecidableEq, Repr

/-- The fields the table of R70 gives a command. -/
def Instr.fields : Instr → CmdFields
  | .pkt f n le ls => ⟨0b0001, 0, BitVec.ofBool f, n, le, ls⟩
  | .endStream f => ⟨0b0010, 0, BitVec.ofBool f, 0, 0, 0⟩

end Sys2Proof
end

