-- ==== Sys2Proof/WellFormed.lean ====
section
/-! DEFINITION. Which field values make a command (spec/30_encoding.md rules R70 and R74), written from R74's prose; the
decoder (Decode.lean) is written from R71's masks, and the two are compared by a statement. -/

namespace Sys2Proof

/-- `op` names a command (R74: not `0000`, not `0011 .. 1111`). -/
def CmdFields.opKnown (f : CmdFields) : Bool :=
  f.op == 0b0001 || f.op == 0b0010

/-- `rsv` is `000` (R70). -/
def CmdFields.rsvZero (f : CmdFields) : Bool :=
  f.rsv == 0

/-- The fields END leaves unused, bits 55:0, are all 0 where `op` is END's (R70, R74). -/
def CmdFields.endOperandsZero (f : CmdFields) : Bool :=
  f.op != 0b0010 || (f.nsamples == 0 && f.loopEnd == 0 && f.loopStart == 0)

/-- The fields are those of a legal command (R74). -/
def CmdFields.wellFormed (f : CmdFields) : Bool :=
  f.opKnown && f.rsvZero && f.endOperandsZero

/-- A command is well formed when its fields are. -/
abbrev Instr.WellFormed (i : Instr) : Prop :=
  i.fields.wellFormed = true

end Sys2Proof
end

