-- ==== Sys2Proof/Decode.lean ====
section
/-! DEFINITION. Decoding a command word (spec/30_encoding.md rules R71 to R74), total on 64-bit words: the two masked tests
of R71 in their order, `none` for every illegal word (R74). After it the encoder, from the field table of R70. -/

namespace Sys2Proof

/-- The match of PKT (R70). -/
def pktMatch : CmdWord := 0x1000000000000000

/-- The mask of PKT (R70). -/
def pktMask : CmdWord := 0xFE00000000000000

/-- The match of END (R70). -/
def endMatch : CmdWord := 0x2000000000000000

/-- The mask of END (R70). -/
def endMask : CmdWord := 0xFEFFFFFFFFFFFFFF

/-- `w[56]` (R72, R73). -/
def wordLoopFlag (w : CmdWord) : Bool := w.getLsbD 56

/-- `w[55:32]` (R72). -/
def wordNsamples (w : CmdWord) : SampleCount := w.extractLsb' 32 24

/-- `w[31:16]` (R72). -/
def wordLoopEnd (w : CmdWord) : LoopIdx := w.extractLsb' 16 16

/-- `w[15:0]` (R72). -/
def wordLoopStart (w : CmdWord) : LoopIdx := w.extractLsb' 0 16

/-- The command a word stands for, or `none` for an illegal word (R71). -/
def decode (w : CmdWord) : Option Instr :=
  if w &&& pktMask = pktMatch then
    some (.pkt (wordLoopFlag w) (wordNsamples w) (wordLoopEnd w) (wordLoopStart w))
  else if w &&& endMask = endMatch then
    some (.endStream (wordLoopFlag w))
  else
    none

/-- The fields of a word, by the bit positions of R70. -/
def wordFields (w : CmdWord) : CmdFields where
  op := w.extractLsb' 60 4
  rsv := w.extractLsb' 57 3
  loopFlag := w.extractLsb' 56 1
  nsamples := wordNsamples w
  loopEnd := wordLoopEnd w
  loopStart := wordLoopStart w

/-- The word made of six fields, bit 63 first (R70). -/
def CmdFields.word (f : CmdFields) : CmdWord :=
  f.op ++ f.rsv ++ f.loopFlag ++ f.nsamples ++ f.loopEnd ++ f.loopStart

/-- The word of a command (R70, R83). -/
def encode (i : Instr) : CmdWord :=
  i.fields.word

/-- The command the decoder reads from a row of the opcode table: the word whose low `nbits` bits are `w`'s and whose
other bits are 0. A command word crosses its channel whole, so no byte order applies (R58). -/
def decodeTableWord (nbits w : Nat) : Option Instr :=
  decode (BitVec.ofNat 64 (w % 2 ^ nbits))

end Sys2Proof
end

