-- ==== Sys2Proof/Config.lean ====
section
/-! DEFINITION. The parameters the spec names as configuration fields (spec/00_scope.md rule R7) with this hardware's
values, and the constants that are fixed (rule R6). The spec leaves no RESULT open, so there is no free value here.
`FRAC`, `HIST_W`, `SHIFT_NOHIT` and `LAST_HEADER_RESET` are read by the functions of the block encoder and by END; the five
widths of the interface are the widths of the types of Word.lean, and `Config.FitsTypes` says so of a configuration. -/

namespace Sys2Proof

/-- The parameters of R7, each under the spec's own name. -/
structure Config where
  /-- Fraction bits of the feedback path (decision D6). -/
  FRAC : Nat
  /-- Total bits of `P`, `HIST1`, `HIST2` (decisions D6, D7). -/
  HIST_W : Nat
  /-- The shift when none of the twelve tests of the shift derivation fires (decision D11). -/
  SHIFT_NOHIT : Nat
  /-- Bits of a command word (decision D3). -/
  CMD_W : Nat
  /-- Bits of the sample count of PKT (decision D3). -/
  NS_W : Nat
  /-- Bits of `loop_start` and of `loop_end` (decision D3). -/
  LOOP_W : Nat
  /-- Bits of the block index counter (decision D14). -/
  BIDX_W : Nat
  /-- Bits of a response word (decision D4). -/
  RSP_W : Nat
  /-- `LAST_HEADER` after reset and after END (decisions D13, D18). -/
  LAST_HEADER_RESET : Byte
  deriving DecidableEq, Repr

/-- This hardware's values of the parameters (R7). -/
def Config.hw : Config where
  FRAC := 16
  HIST_W := 40
  SHIFT_NOHIT := 0
  CMD_W := 64
  NS_W := 24
  LOOP_W := 16
  BIDX_W := 20
  RSP_W := 32
  LAST_HEADER_RESET := 0x00

/-- The configuration's widths are the widths of the types of Word.lean. -/
abbrev Config.FitsTypes (cfg : Config) : Prop :=
  CmdWord = BitVec cfg.CMD_W ∧ SampleCount = BitVec cfg.NS_W ∧ LoopIdx = BitVec cfg.LOOP_W ∧
    BlockIdx = BitVec cfg.BIDX_W ∧ RspWord = BitVec cfg.RSP_W ∧ HistWord = BitVec cfg.HIST_W

/-- `BLOCK_SAMPLES`: samples per block (R6). -/
abbrev Config.BLOCK_SAMPLES : Nat := 28

/-- `CHUNK_BYTES`: bytes per chunk (R6). -/
abbrev Config.CHUNK_BYTES : Nat := 16

/-- `CLAMP_LO`: the lower clamp of a sample (R6). -/
abbrev Config.CLAMP_LO : Int := -30720

/-- `CLAMP_HI`: the upper clamp of a sample (R6). -/
abbrev Config.CLAMP_HI : Int := 30719

/-- `EARLY_EXIT` = 7.0 in units of 1/64: the threshold of the early exit on the running minimum (R6, R106). -/
abbrev Config.EARLY_EXIT64 : Nat := 448

/-- `MASK0`: the first mask of the shift derivation (R6). -/
abbrev Config.MASK0 : Nat := 0x4000

/-- `SHIFT_TESTS`: the shifts tested are 0..11 (R6). -/
abbrev Config.SHIFT_TESTS : Nat := 12

/-- `QBIAS`: the rounding bias of the quantizer (R6). -/
abbrev Config.QBIAS : Int := 0x800

/-- `QSTEP`: the quantizer's step (R6). -/
abbrev Config.QSTEP : Int := 4096

/-- `Q_MIN`: the lower clamp of a quantized sample (R6). -/
abbrev Config.Q_MIN : Int := -32768

/-- `Q_MAX`: the upper clamp of a quantized sample (R6). -/
abbrev Config.Q_MAX : Int := 32767

end Sys2Proof
end

