-- ==== Sys2Proof/Machine/State.lean ====
section
/-! DEFINITION. Everything the machine remembers (spec/10_state.md rules R21 to R30), the four channels as the core sees
them (spec/20_memory.md rule R50), the reasons a step can have no effect, and the state after reset (rule R34). -/

namespace Sys2Proof.Machine

/-- The sequencer's phase (R30). -/
inductive Phase where
  /-- Wait for a command word. -/
  | idle
  /-- Take the samples of a block. -/
  | fill
  /-- Encode the block. -/
  | encode
  /-- Push the sixteen bytes of a chunk. -/
  | emit
  /-- Take and discard the samples left after a loop-end stop. -/
  | drain
  /-- Push the response word. -/
  | respond
  deriving DecidableEq, Repr

/-- Which command word the sequencer is answering. R30 implies it: what follows EMIT and what RESPOND pushes depend on it. -/
inductive Running where
  /-- No command: the sequencer is in IDLE. -/
  | nothing
  /-- A PKT command. -/
  | pkt
  /-- An END command. -/
  | endStream
  /-- An illegal word (R200). -/
  | illegal
  deriving DecidableEq, Repr

/-- How many more items the host accepts on a channel it receives on: the receiver's half of the handshake of R50. -/
inductive Accept where
  /-- Every item, as soon as it is offered. -/
  | always
  /-- This many more items, and then none until the host moves. -/
  | upTo (n : Nat)
  deriving DecidableEq, Repr

/-- One completed transfer over a channel (R50). -/
inductive Transfer where
  /-- A command word was taken from CMD. -/
  | cmd (w : CmdWord)
  /-- A sample was taken from SMP. -/
  | sample (v : Sample)
  /-- A byte was accepted on OUT. -/
  | byte (b : Byte)
  /-- A response word was accepted on RSP. -/
  | rsp (w : RspWord)
  deriving DecidableEq, Repr

/-- The working registers of one block (R28). Those R28 lets be unbounded, and those whose width is a range of the rule
that writes them, are integers; `WorkFits` (Safety.lean) says that they stay within R28's widths. -/
structure Work where
  /-- `SB`: the block's samples taken so far, and after FILL all 28, padding included. -/
  sb : List Sample
  /-- `C`: the clamped samples. -/
  c : List Int
  /-- `R64[p][i]`: the residuals of the five candidates in units of 1/64, candidate 0 first. -/
  r64 : List (List Int)
  /-- `MAX64[p]`: the max-residuals in units of 1/64. -/
  max64 : List Nat
  /-- `MIN64`: the running minimum of `MAX64`. -/
  min64 : Nat
  /-- `IDX`: the chosen predictor. -/
  idx : PredIdx
  /-- `SHIFT`: the chosen shift. -/
  shift : Nat
  /-- `P`: the predicted value of the sample last quantized, in units of 2^-16. -/
  p : Int
  /-- `Q`: the quantized samples. -/
  q : List Int
  /-- `CODE`: the 4-bit codes. -/
  code : List Nibble
  /-- `PAY`: the payload bytes. -/
  pay : List Byte
  /-- `HDR`: the header byte. -/
  hdr : Byte
  /-- `FLG`: the flag byte. -/
  flg : Byte
  deriving DecidableEq, Repr

/-- Zeros in every working register: a DESIGN CHOICE (log entry 2), since R34 leaves them unspecified after reset. -/
def Work.cleared : Work where
  sb := []
  c := []
  r64 := []
  max64 := []
  min64 := 0
  idx := 0
  shift := 0
  p := 0
  q := []
  code := []
  pay := []
  hdr := 0
  flg := 0

/-- The state of the core, and of the channels between it and the host. -/
structure State where
  /-- `PHASE` (R30). -/
  phase : Phase
  /-- The command being answered (implied by R30). -/
  running : Running
  /-- The offset, 0..15, of the next byte of the chunk inside EMIT (R30). -/
  emitOff : Nat
  /-- `LAST_HEADER` (R21). -/
  lastHeader : Byte
  /-- `FH1`, filter history: the last clamped sample (R22). -/
  fh1 : Sample
  /-- `FH2`, filter history: the clamped sample before it (R22). -/
  fh2 : Sample
  /-- `HIST1`, reconstruction history (R23). -/
  hist1 : HistWord
  /-- `HIST2`, reconstruction history (R23). -/
  hist2 : HistWord
  /-- `LOOP_FLAG` (R24). -/
  loopFlag : Bool
  /-- `LOOP_START` (R24). -/
  loopStart : LoopIdx
  /-- `LOOP_END` (R24). -/
  loopEnd : LoopIdx
  /-- `REMAIN` (R25). -/
  remain : SampleCount
  /-- `BIDX` (R26). -/
  bidx : BlockIdx
  /-- `NBYTES` (R27). -/
  nbytes : ByteCount
  /-- The working registers (R28). -/
  work : Work
  /-- `last` of R160: the block is the last of its packet. -/
  last : Bool
  /-- `stop` of R160: a loop-end stop has fired in this packet. -/
  stop : Bool
  /-- The words the host offers on CMD, in order. -/
  cmd : List CmdWord
  /-- The samples the host offers on SMP, in order. -/
  smp : List Sample
  /-- What the host accepts on OUT. -/
  outAccept : Accept
  /-- What the host accepts on RSP. -/
  rspAccept : Accept
  /-- Every transfer made so far on any channel, oldest first (R55, R56). -/
  trace : List Transfer
  /-- The reset input is asserted (R220). -/
  resetIn : Bool
  deriving DecidableEq, Repr

/-- The bytes the host has accepted on OUT, oldest first: the output stream (R52). -/
def State.out (s : State) : List Byte :=
  s.trace.filterMap fun | .byte b => some b | .cmd _ => none | .sample _ => none | .rsp _ => none

/-- The response words the host has accepted on RSP, oldest first (R53). -/
def State.rsp (s : State) : List RspWord :=
  s.trace.filterMap fun | .rsp w => some w | .cmd _ => none | .sample _ => none | .byte _ => none

/-- The samples the core has taken from SMP, oldest first. -/
def State.taken (s : State) : List Sample :=
  s.trace.filterMap fun | .sample v => some v | .cmd _ => none | .byte _ => none | .rsp _ => none

/-- Why the core has no step. None is an error of the core: each is the host not moving (R54, R228; 93 U7 calls it
stuck). All are SAFE: a wait is never turned into a value, a time-out or a dropped item. -/
inductive Fault where
  /-- IDLE and no word is offered on CMD. Raised by `step`. -/
  | waitCmd
  /-- FILL or DRAIN needs a sample and none is offered on SMP. Raised by `step`. -/
  | waitSample
  /-- EMIT offers a byte and the host does not accept it. Raised by `step`. -/
  | waitOut
  /-- RESPOND offers a response word and the host does not accept it. Raised by `step`. -/
  | waitRsp
  deriving DecidableEq, Repr

/-- Why a command has no meaning in the model. No command of this model ends so. -/
inductive Refusal where
  /-- The command's meaning is not written yet. Raised by an arm of `exec`; SAFE: nothing is claimed of it. -/
  | notModelled (mnemonic : String)
  deriving DecidableEq, Repr

/-- The state after reset (R34): every register at R34's value, the working registers at the values of log entry 2, the
channels empty, a host that accepts every byte and response word (log entry 3), and no transfer made. -/
def State.reset : State where
  phase := .idle
  running := .nothing
  emitOff := 0
  lastHeader := Config.hw.LAST_HEADER_RESET
  fh1 := 0
  fh2 := 0
  hist1 := 0
  hist2 := 0
  loopFlag := false
  loopStart := 0
  loopEnd := 0
  remain := 0
  bidx := 0
  nbytes := 0
  work := Work.cleared
  last := false
  stop := false
  cmd := []
  smp := []
  outAccept := .always
  rspAccept := .always
  trace := []
  resetIn := false

end Sys2Proof.Machine
end

