-- ==== Sys2Proof/Machine/Operands.lean ====
section
/-! DEFINITION. The operands of the two commands (spec/30_encoding.md rules R72 and R73) latched into the registers, with
the assignments that stand before the loop of R160 and before the `if` of R170. -/

namespace Sys2Proof.Machine

/-- The operands of PKT latched, the counters and both history pairs set to 0 (R160, R161). -/
def latchPkt (loopFlag : Bool) (nsamples : SampleCount) (loopEnd loopStart : LoopIdx) (s : State) : State :=
  { s with
    running := .pkt
    loopFlag := loopFlag
    loopStart := loopStart
    loopEnd := loopEnd
    remain := nsamples
    bidx := 0
    nbytes := 0
    fh1 := 0
    fh2 := 0
    hist1 := 0
    hist2 := 0
    stop := false }

/-- END taken: its count of bytes starts from 0, and its operand is not stored (R24, R170). -/
def latchEnd (s : State) : State :=
  { s with running := .endStream, nbytes := 0 }

end Sys2Proof.Machine
end

