-- ==== Sys2Proof/Machine/Flags.lean ====
section
/-! DEFINITION. Step 8 of the block encoder: the flag byte of a chunk and the loop-end stop (spec/42_packer_chunk.md rule
R144, with the readings of R145). The core has no status flags (spec/10_state.md rule R32): this is its only flag
computation. -/

namespace Sys2Proof.Machine

/-- The flag value Nothing (R79). -/
def flagNothing : Byte := 0
/-- The flag value LoopLastBlock (R79). -/
def flagLoopLastBlock : Byte := 1
/-- The flag value LoopRegion (R79). -/
def flagLoopRegion : Byte := 2
/-- The flag value LoopEnd (R79). -/
def flagLoopEnd : Byte := 3
/-- The flag value LoopStart (R79). -/
def flagLoopStart : Byte := 6

/-- `Flag`: the flag byte `FLG` and `stop`; the order of the tests is the priority of the rows (R144, R145). -/
def flagOf (last loopFlag : Bool) (bidx : BlockIdx) (loopStart loopEnd : LoopIdx) : Byte × Bool :=
  if last then
    if loopFlag then (flagLoopEnd, false) else (flagLoopLastBlock, false)
  else if !loopFlag then
    (flagNothing, false)
  else if bidx = loopStart.setWidth 20 then
    (flagLoopStart, false)
  else if bidx = loopEnd.setWidth 20 then
    (flagLoopEnd, true)
  else
    (flagLoopRegion, false)

end Sys2Proof.Machine
end

