-- ==== Sys2Proof/Machine/Arith.lean ====
section
/-! DEFINITION. The operators of spec/00_scope.md rule R9 on mathematical integers. `floor(a / b)` for `b > 0` is Lean's
`a / b` on `Int`. -/

namespace Sys2Proof.Machine

/-- `clamp(v, lo, hi)` (R9). -/
def clamp (v lo hi : Int) : Int :=
  if v < lo then lo else if hi < v then hi else v

/-- `sat_N(v) = clamp(v, -2^(N-1), 2^(N-1) - 1)` (R9). -/
def sat (n : Nat) (v : Int) : Int :=
  clamp v (-2 ^ (n - 1)) (2 ^ (n - 1) - 1)

/-- `a >>a n = floor(a / 2^n)` (R9). -/
def asr (a : Int) (n : Nat) : Int :=
  a / 2 ^ n

end Sys2Proof.Machine
end

