-- ==== Sys2Proof/Machine/Predict.lean ====
section
/-! DEFINITION. Steps 1 to 4 of the block encoder (spec/40_predictor_select.md): the predictor bank (R100), `Clamp` (R102),
`Scan` (R103, R104), `Select` with the early exit (R106, R107) and `ShiftOf` (R109, R110). Pure functions (R12). -/

namespace Sys2Proof.Machine

/-- `K1N[p]`: the coefficient k1 of predictor p in 64ths (R100). -/
def K1N : PredIdx → Int
  | 0 => 0
  | 1 => -64
  | 2 => -115
  | 3 => -98
  | 4 => -122

/-- `K2N[p]`: the coefficient k2 of predictor p in 64ths (R100). -/
def K2N : PredIdx → Int
  | 0 => 0
  | 1 => 0
  | 2 => 52
  | 3 => 55
  | 4 => 60

/-- The predictor indexes in the order the scan and the selection take them. -/
def predictors : List PredIdx := [0, 1, 2, 3, 4]

/-- `Clamp` on one sample (R102). -/
def clampSample (v : Sample) : Int :=
  clamp v.toInt Config.CLAMP_LO Config.CLAMP_HI

/-- `Clamp`: the clamped samples of a block (R102). -/
def clampBlock (sb : List Sample) : List Int :=
  sb.map clampSample

/-- `Scan`: the residuals of candidate `p` in units of 1/64, from the filter history `h1`, `h2` (R103). -/
def residuals (p : PredIdx) : Int → Int → List Int → List Int
  | _, _, [] => []
  | h1, h2, x :: xs => (64 * x + K1N p * h1 + K2N p * h2) :: residuals p x h1 xs

/-- The largest magnitude in a list, starting from 0 (R104). -/
def maxAbs : List Int → Nat
  | [] => 0
  | r :: rs => max r.natAbs (maxAbs rs)

/-- `R64`: the residuals of the five candidates, every one from the same history (R103). -/
def scanBlock (c : List Int) (fh1 fh2 : Int) : List (List Int) :=
  predictors.map fun p => residuals p fh1 fh2 c

/-- `MAX64` (R104). -/
def maxResiduals (r64 : List (List Int)) : List Nat :=
  r64.map maxAbs

/-- The selection from the candidates `xs` still to be looked at, with the running minimum and its index so far; an equal
max-residual replaces nothing, and a running minimum of at most 7.0 stops the scan with index 0 (R106). -/
def selectFrom : List (PredIdx × Nat) → Option Nat → PredIdx → PredIdx × Option Nat
  | [], m, i => (i, m)
  | (p, x) :: xs, m, i =>
    let better : Bool := match m with
      | none => true
      | some v => decide (x < v)
    let m' := if better then x else m.getD x
    let i' := if better then p else i
    if m' ≤ Config.EARLY_EXIT64 then (0, some m') else selectFrom xs (some m') i'

/-- `Select`: `IDX` and `MIN64` (R106). -/
def select (max64 : List Nat) : PredIdx × Nat :=
  let r := selectFrom (predictors.zip max64) none 0
  (r.1, r.2.getD 0)

/-- The tests of the shift derivation still to be made, with the mask and the shift reached (R109). -/
def shiftSearch (nohit minInt : Nat) : Nat → Nat → Nat → Nat
  | 0, _, _ => nohit
  | k + 1, mask, s =>
    if mask &&& (minInt + mask >>> 3) ≠ 0 then s else shiftSearch nohit minInt k (mask >>> 1) (s + 1)

/-- `ShiftOf`: the shift of a running minimum in units of 1/64 (R109, R110). -/
def shiftOf (cfg : Config) (min64 : Nat) : Nat :=
  shiftSearch cfg.SHIFT_NOHIT (min64 / 64) Config.SHIFT_TESTS Config.MASK0 0

end Sys2Proof.Machine
end

