-- ==== Sys2Proof/Machine/Quantize.lean ====
section
/-! DEFINITION. Step 5 of the block encoder: the feedback quantizer (spec/41_quantizer.md rules R121 to R126). `P` and the
reconstruction history are integers in units of 2^-FRAC. Pure functions (R12). -/

namespace Sys2Proof.Machine

/-- `P` before the saturation: residual plus history term, floored to a multiple of 2^-FRAC (R121). -/
def predictExact (cfg : Config) (idx : PredIdx) (r64 h1 h2 : Int) : Int :=
  (64 * (r64 * 2 ^ (cfg.FRAC - 6)) + K1N idx * h1 + K2N idx * h2) / 64

/-- `P`: the predicted value (R121). -/
def predictValue (cfg : Config) (idx : PredIdx) (r64 h1 h2 : Int) : Int :=
  sat cfg.HIST_W (predictExact cfg idx r64 h1 h2)

/-- `q0`: the multiple of 4096 at or below the scaled value plus half a step, of a predicted value `p` (R122, R123). -/
def roundStep (cfg : Config) (shift : Nat) (p : Int) : Int :=
  Config.QSTEP * ((p * 2 ^ shift + Config.QBIAS * 2 ^ cfg.FRAC) / (Config.QSTEP * 2 ^ cfg.FRAC))

/-- `Q[k]` of a predicted value `p` (R123). -/
def quantizeValue (cfg : Config) (shift : Nat) (p : Int) : Int :=
  clamp (roundStep cfg shift p) Config.Q_MIN Config.Q_MAX

/-- The new `HIST1` (R124, R125). -/
def errorTerm (cfg : Config) (shift : Nat) (p q : Int) : Int :=
  sat cfg.HIST_W (asr q shift * 2 ^ cfg.FRAC - p)

/-- What `Quantize` leaves: `Q`, the last `P` and the reconstruction history. -/
structure Quantized where
  q : List Int
  p : Int
  hist1 : Int
  hist2 : Int
  deriving DecidableEq, Repr

/-- `Quantize`: the residuals of the chosen candidate in order, each from the history the one before left (R126). -/
def quantize (cfg : Config) (idx : PredIdx) (shift : Nat) : List Int → Int → Int → Int → Quantized
  | [], p, h1, h2 => ⟨[], p, h1, h2⟩
  | r :: rs, _, h1, h2 =>
    let p := predictValue cfg idx r h1 h2
    let q := quantizeValue cfg shift p
    let rest := quantize cfg idx shift rs p (errorTerm cfg shift p q) h1
    { rest with q := q :: rest.q }

end Sys2Proof.Machine
end

