-- ==== Sys2Proof/Machine/Pack.lean ====
section
/-! DEFINITION. Steps 6 and 7 of the block encoder: the 4-bit codes, the payload bytes and the header byte
(spec/42_packer_chunk.md rules R140 to R142), and the terminator's bytes (spec/30_encoding.md rule R81). -/

namespace Sys2Proof.Machine

/-- `CODE[i]`: bits 15:12 of the 16-bit pattern of `Q[i]` (R140). -/
def codeOf (q : Int) : Nibble :=
  (BitVec.ofInt 16 q).extractLsb' 12 4

/-- `PAY`: two codes a byte, the earlier one in the low nibble (R141). -/
def packCodes : List Nibble → List Byte
  | lo :: hi :: rest => (hi ++ lo) :: packCodes rest
  | [_] => []
  | [] => []

/-- `HDR` (R142). -/
def headerByte (idx : PredIdx) (shift : Nat) : Byte :=
  ((BitVec.ofNat 8 idx.val <<< 4) &&& 0xF0) ||| (BitVec.ofNat 8 shift &&& 0x0F)

/-- The flag value PlaybackEnd (R79). -/
def flagPlaybackEnd : Byte := 7

/-- The sixteen bytes of the terminator chunk, after a last header byte (R81, R171). -/
def terminatorBytes (lastHeader : Byte) : List Byte :=
  lastHeader :: flagPlaybackEnd :: List.replicate 14 0

end Sys2Proof.Machine
end

