-- ==== Sys2Proof/Machine/Block.lean ====
section
/-! DEFINITION. The block encoder as one function, `EncodeBlock` (spec/42_packer_chunk.md rule R147). -/

namespace Sys2Proof.Machine

/-- What `EncodeBlock` leaves: the working registers, `stop`, and the two history pairs. -/
structure Encoded where
  work : Work
  stop : Bool
  fh1 : Int
  fh2 : Int
  hist1 : Int
  hist2 : Int
  deriving DecidableEq, Repr

/-- Steps 1 to 7 of `EncodeBlock` and step 8's flag, in R147's order. -/
def encodeBlock (cfg : Config) (sb : List Sample) (last : Bool) (fh1 fh2 hist1 hist2 : Int)
    (loopFlag : Bool) (loopStart loopEnd : LoopIdx) (bidx : BlockIdx) : Encoded :=
  let c := clampBlock sb
  let r64 := scanBlock c fh1 fh2
  let max64 := maxResiduals r64
  let sel := select max64
  let shift := shiftOf cfg sel.2
  let qd := quantize cfg sel.1 shift (r64.getD sel.1.val []) 0 hist1 hist2
  let code := qd.q.map codeOf
  let flag := flagOf last loopFlag bidx loopStart loopEnd
  { work :=
      { sb := sb
        c := c
        r64 := r64
        max64 := max64
        min64 := sel.2
        idx := sel.1
        shift := shift
        p := qd.p
        q := qd.q
        code := code
        pay := packCodes code
        hdr := headerByte sel.1 shift
        flg := flag.1 }
    stop := flag.2
    fh1 := c.getD 27 0
    fh2 := c.getD 26 0
    hist1 := qd.hist1
    hist2 := qd.hist2 }

/-- The sixteen bytes of a block's chunk, in offset order (R77, R146). -/
def chunkBytes (w : Work) : List Byte :=
  w.hdr :: w.flg :: w.pay

end Sys2Proof.Machine
end

