-- ==== Sys2Proof/Machine/Ops.lean ====
section
/-! DEFINITION. The named operations on the machine's state: the four channel primitives (spec/00_scope.md rule R11,
spec/20_memory.md rule R54), the one error the core reports (spec/60_exceptions.md rule R200), reset (rules R220, R221) and
END's re-initialisation (rule R172). The core has no addressed memory (R50, R62): these are its only accesses. -/

namespace Sys2Proof.Machine

/-- What the host accepts after one more item, or `none` where it accepts no more. -/
def Accept.take : Accept → Option Accept
  | .always => some .always
  | .upTo 0 => none
  | .upTo (n + 1) => some (.upTo n)

/-- `PopCmd`: the next command word, taken from CMD; `none` while none is offered (R11, R61). -/
def popCmd (s : State) : Option (CmdWord × State) :=
  match s.cmd with
  | [] => none
  | w :: rest => some (w, { s with cmd := rest, trace := s.trace ++ [.cmd w] })

/-- `PopSample`: the next sample, taken from SMP; `none` while none is offered (R11, R61). -/
def popSample (s : State) : Option (Sample × State) :=
  match s.smp with
  | [] => none
  | v :: rest => some (v, { s with smp := rest, trace := s.trace ++ [.sample v] })

/-- `PushByte`: the byte accepted on OUT; `none` while the host accepts none (R11, R54). -/
def pushByte (b : Byte) (s : State) : Option State :=
  match s.outAccept.take with
  | none => none
  | some a => some { s with outAccept := a, trace := s.trace ++ [.byte b] }

/-- `PushRsp`: the response word accepted on RSP; `none` while the host accepts none (R11, R54). -/
def pushRsp (w : RspWord) (s : State) : Option State :=
  match s.rspAccept.take with
  | none => none
  | some a => some { s with rspAccept := a, trace := s.trace ++ [.rsp w] }

/-- `raise IllegalCmd`: the whole of taking the core's one exception. No register saves anything and no handler runs
(R205): the sequencer goes to RESPOND, where the word of `responseWord` for an illegal command is pushed (R200). -/
def raiseIllegalCmd (s : State) : State :=
  { s with phase := .respond, running := .illegal }

/-- The response word: `err` in bit 31 and `bytes` in bits 30:0 (R75). An illegal word is answered with `err` = 1 and
`bytes` = 0, whatever NBYTES holds (R200). -/
def responseWord (s : State) : RspWord :=
  match s.running with
  | .illegal => (1#1 ++ 0#31 : BitVec 32)
  | .pkt => (0#1 ++ s.nbytes : BitVec 32)
  | .endStream => (0#1 ++ s.nbytes : BitVec 32)
  | .nothing => (0#1 ++ s.nbytes : BitVec 32)

/-- The stream state put back to its reset values at the end of END (R172), and NBYTES with it (R34; log entry 5). -/
def reinitStream (s : State) : State :=
  { s with
    lastHeader := Config.hw.LAST_HEADER_RESET
    fh1 := 0
    fh2 := 0
    hist1 := 0
    hist2 := 0
    loopFlag := false
    loopStart := 0
    loopEnd := 0
    remain := 0
    bidx := 0
    nbytes := 0 }

/-- The command is answered: the sequencer goes to IDLE, and after an END the stream state is re-initialised. This is all
the return there is from an illegal word too (R205). -/
def finishCommand (s : State) : State :=
  let s' := { s with phase := .idle, running := .nothing }
  match s.running with
  | .endStream => reinitStream s'
  | .pkt => s'
  | .illegal => s'
  | .nothing => s'

/-- The core while its reset input is asserted: every register at its reset value and the channels empty (R220); the
transfers made stay made (R221), and the host's side of the handshakes and the reset input itself are the host's. -/
def holdReset (s : State) : State :=
  { State.reset with
    outAccept := s.outAccept
    rspAccept := s.rspAccept
    trace := s.trace
    resetIn := true }

/-- The core as its reset input is released: R34's state, the channels empty, however long reset was asserted and whatever
the host offered on CMD and SMP meanwhile (R220; that such an offer has to be made again is the model's choice, log entry
15). Where the input is not asserted there is nothing to release. -/
def releaseReset (s : State) : State :=
  if s.resetIn then { holdReset s with resetIn := false } else s

end Sys2Proof.Machine
end

