-- ==== Sys2Proof/Machine/Sequencer.lean ====
section
/-! DEFINITION. The sequencer (spec/10_state.md rule R30): `tick` makes one move of it, which is one transfer, one
encoding of a block or one padding of a block; `runToWait` moves it until the command in progress is answered or the core
has to wait for the host. -/

namespace Sys2Proof.Machine

/-- The loop tests of R160, at the start of a PKT and after each chunk: another block, the samples left after a stop, or
the response (R30). -/
def loopTest (s : State) : State :=
  if s.remain = 0#24 then { s with phase := .respond }
  else if s.stop then { s with phase := .drain }
  else { s with phase := .fill, work := { s.work with sb := [] } }

/-- `n = min(REMAIN, 28)`: the samples the block takes (R160, R163). -/
def blockTake (s : State) : Nat :=
  min s.remain.toNat Config.BLOCK_SAMPLES

/-- The block has its samples: `last` (R164), the zero padding (R163), and REMAIN less the samples taken (R160). -/
def padBlock (s : State) : State :=
  { s with
    phase := .encode
    last := decide (s.remain.toNat ≤ Config.BLOCK_SAMPLES)
    remain := s.remain - BitVec.ofNat 24 (blockTake s)
    work := { s.work with sb := s.work.sb ++ List.replicate (Config.BLOCK_SAMPLES - s.work.sb.length) 0 } }

/-- FILL: the block's next sample, or its padding once it has `n` of them (R163). -/
def tickFill (s : State) : Host.Outcome State Fault Refusal :=
  if s.remain = 0#24 then
    .next (loopTest s)
  else if s.work.sb.length < blockTake s then
    match popSample s with
    | none => .fault .waitSample
    | some (v, s') => .next { s' with work := { s.work with sb := s.work.sb ++ [v] } }
  else
    .next (padBlock s)

/-- What `EncodeBlock` gives for the block in `SB` (R147). -/
def encodedBlock (s : State) : Encoded :=
  encodeBlock Config.hw s.work.sb s.last s.fh1.toInt s.fh2.toInt s.hist1.toInt s.hist2.toInt
    s.loopFlag s.loopStart s.loopEnd s.bidx

/-- ENCODE: the working registers and both history pairs as `EncodeBlock` leaves them (R147). -/
def tickEncode (s : State) : State :=
  let e := encodedBlock s
  { s with
    phase := .emit
    emitOff := 0
    work := e.work
    stop := e.stop
    fh1 := BitVec.ofInt 16 e.fh1
    fh2 := BitVec.ofInt 16 e.fh2
    hist1 := BitVec.ofInt 40 e.hist1
    hist2 := BitVec.ofInt 40 e.hist2 }

/-- The bytes EMIT pushes: a block's chunk, or the terminator, which END makes from LAST_HEADER as it stands (R171). -/
def emitBytes (s : State) : List Byte :=
  match s.running with
  | .endStream => terminatorBytes s.lastHeader
  | .pkt => chunkBytes s.work
  | .illegal => chunkBytes s.work
  | .nothing => chunkBytes s.work

/-- The chunk has been accepted whole: NBYTES (R146, R170), and after a PKT's chunk LAST_HEADER (R166), BIDX and the loop
tests (R160). -/
def finishChunk (s : State) : State :=
  match s.running with
  | .pkt =>
    loopTest { s with nbytes := s.nbytes + 16, lastHeader := s.work.hdr, bidx := s.bidx + 1 }
  | .endStream => { s with nbytes := 16, phase := .respond }
  | .illegal => { s with phase := .respond }
  | .nothing => { s with phase := .respond }

/-- EMIT: the byte at the offset reached (R146, R170). -/
def tickEmit (s : State) : Host.Outcome State Fault Refusal :=
  match pushByte ((emitBytes s).getD s.emitOff 0) s with
  | none => .fault .waitOut
  | some s' =>
    if s.emitOff + 1 < Config.CHUNK_BYTES then .next { s' with emitOff := s.emitOff + 1 }
    else .next (finishChunk { s' with emitOff := 0 })

/-- DRAIN: one of the samples left after a stop, taken and discarded (R167). -/
def tickDrain (s : State) : Host.Outcome State Fault Refusal :=
  if s.remain = 0#24 then
    .next { s with phase := .respond }
  else
    match popSample s with
    | none => .fault .waitSample
    | some (_, s') => .next { s' with remain := s.remain - 1 }

/-- RESPOND: the response word, and the end of the command (R75). -/
def tickRespond (s : State) : Host.Outcome State Fault Refusal :=
  match pushRsp (responseWord s) s with
  | none => .fault .waitRsp
  | some s' => .next (finishCommand s')

/-- One move of the sequencer inside a command (R30). In IDLE there is none: only a command word starts one. -/
def tick (s : State) : Host.Outcome State Fault Refusal :=
  match s.phase with
  | .idle => .fault .waitCmd
  | .fill => tickFill s
  | .encode => .next (tickEncode s)
  | .emit => tickEmit s
  | .drain => tickDrain s
  | .respond => tickRespond s

/-- At most `k` moves of the sequencer, fewer where it has to wait or the command ends. -/
def runOn : Nat → State → State
  | 0, s => s
  | k + 1, s =>
    match tick s with
    | .next s' => runOn k s'
    | .fault _ => s
    | .refused _ => s

/-- A bound on the moves left in the command: every move makes it smaller (Laws/Sequencer.lean), so running that many
moves runs until the host has to move or the command is answered (R228). -/
def ticksLeft (s : State) : Nat :=
  match s.phase with
  | .idle => 0
  | .respond => 1
  | .drain => s.remain.toNat + 2
  | .fill => 48 * s.remain.toNat + (28 - s.work.sb.length) + 32
  | .emit => 48 * s.remain.toNat + (16 - s.emitOff) + 62
  | .encode => 48 * s.remain.toNat + 79

/-- The command in progress run until it is answered or the core waits for the host (R30, R54). -/
def runToWait (s : State) : State :=
  runOn (ticksLeft s) s

end Sys2Proof.Machine
end

