-- ==== Sys2Proof/Machine/Stream.lean ====
section
/-! DEFINITION. The meanings of the two commands (spec/43_stream_commands.md rules R160 and R170). The command word has
been taken and decoded. A meaning runs its command to the response; where the host has not yet offered a sample or does
not accept a byte or a response word, it runs up to that transfer and leaves the sequencer waiting there, and later steps
go on from it (log entry 1). -/

namespace Sys2Proof.Machine

/-- PKT with its operands latched and the loop about to start (R160). -/
def startPkt (loopFlag : Bool) (nsamples : SampleCount) (loopEnd loopStart : LoopIdx) (s : State) : State :=
  loopTest (latchPkt loopFlag nsamples loopEnd loopStart s)

/-- PKT (R160). -/
def execPkt (loopFlag : Bool) (nsamples : SampleCount) (loopEnd loopStart : LoopIdx) (s : State) :
    Host.Outcome State Fault Refusal :=
  .next (runToWait (startPkt loopFlag nsamples loopEnd loopStart s))

/-- END about to push its terminator, or its response where `loop_flag` is 1 (R170, R30). -/
def startEnd (loopFlag : Bool) (s : State) : State :=
  if loopFlag then { latchEnd s with phase := .respond }
  else { latchEnd s with phase := .emit, emitOff := 0 }

/-- END (R170). -/
def execEndStream (loopFlag : Bool) (s : State) : Host.Outcome State Fault Refusal :=
  .next (runToWait (startEnd loopFlag s))

end Sys2Proof.Machine
end

