-- ==== Sys2Proof/Machine/Dispatch.lean ====
section
/-! DEFINITION. The meaning of each command, one arm per constructor of `Instr`. -/

namespace Sys2Proof.Machine

def exec (i : Instr) (s : State) : Host.Outcome State Fault Refusal :=
  match i with
  | .pkt loopFlag nsamples loopEnd loopStart => Sys2Proof.Machine.execPkt loopFlag nsamples loopEnd loopStart s
  | .endStream loopFlag => Sys2Proof.Machine.execEndStream loopFlag s

end Sys2Proof.Machine
end

