-- ==== Sys2Proof/Machine/Step.lean ====
section
/-! DEFINITION. One step of the machine. -/

namespace Sys2Proof.Machine

/-- One step. With the reset input asserted the core is held in reset (R220, R203). In IDLE it takes the next command word,
decodes it (R71) and runs it, an illegal word by `raiseIllegalCmd` (R200). In any other phase it goes on with the command
in progress from the transfer it waits at. Where the host has not moved there is no step: the outcome names the wait. -/
def step (s : State) : Host.Outcome State Fault Refusal :=
  if s.resetIn then
    .next (holdReset s)
  else if s.phase = .idle then
    match popCmd s with
    | none => .fault .waitCmd
    | some (w, s') =>
      match decode w with
      | some i => exec i s'
      | none => .next (runToWait (raiseIllegalCmd s'))
  else
    match tick s with
    | .next s' => .next (runToWait s')
    | .fault f => .fault f
    | .refused r => .refused r

/-- The state in which `step` takes the given word as its next command word: offered first on CMD, with the sequencer in
IDLE and the reset input released. -/
def State.withFetchWord (s : State) (nbits w : Nat) : State :=
  { s with
    phase := .idle
    cmd := BitVec.ofNat 64 (w % 2 ^ nbits) :: s.cmd
    resetIn := false }

end Sys2Proof.Machine
end

