-- ==== Sys2Proof/Machine/HostSide.lean ====
section
/-! DEFINITION. What the host can do to the machine (spec/10_state.md rule R20): offer items on CMD and SMP, accept items on
OUT and RSP, and drive the reset input (spec/20_memory.md rule R50, spec/70_reset_and_hazards.md rule R220). A run of the
system interleaves these moves with steps of the core in any order. -/

namespace Sys2Proof.Machine

/-- One move of the host. -/
inductive HostMove where
  /-- Offer a command word after those already offered on CMD. -/
  | offerCmd (w : CmdWord)
  /-- Offer samples after those already offered on SMP; before, with or after the command word (R224). -/
  | offerSamples (vs : List Sample)
  /-- Say how many bytes are accepted on OUT from now on (R225). -/
  | acceptOut (a : Accept)
  /-- Say how many response words are accepted on RSP from now on. -/
  | acceptRsp (a : Accept)
  /-- Assert the reset input, which takes effect at once, or release it (R220; log entry 14). -/
  | driveReset (asserted : Bool)
  deriving DecidableEq, Repr

/-- The machine after a move of the host. While the reset input stays asserted a step holds the core in reset (`step`). An
item offered while it is asserted is gone at the release, with a step in between or without one, and has to be offered
again: a DESIGN CHOICE (log entry 15), since R34 and R220 say that the channels are empty and not what becomes of an offer
the host keeps up. -/
def State.host (s : State) : HostMove → State
  | .offerCmd w => { s with cmd := s.cmd ++ [w] }
  | .offerSamples vs => { s with smp := s.smp ++ vs }
  | .acceptOut a => { s with outAccept := a }
  | .acceptRsp a => { s with rspAccept := a }
  | .driveReset true => holdReset s
  | .driveReset false => releaseReset s

/-- One event of a run of the system: a step of the core, or a move of the host. -/
inductive Event where
  | core
  | host (m : HostMove)
  deriving DecidableEq, Repr

/-- The machine after an event; a step that has to wait for the host changes nothing (R54). -/
def State.after (s : State) : Event → State
  | .core =>
    match step s with
    | .next s' => s'
    | .fault _ => s
    | .refused _ => s
  | .host m => s.host m

/-- The machine after a sequence of events. -/
def State.afterAll (s : State) (es : List Event) : State :=
  es.foldl State.after s

end Sys2Proof.Machine
end

