-- ==== Sys2Proof/Machine/Packet.lean ====
section
/-! DEFINITION. The pseudocode of PKT (spec/43_stream_commands.md rule R160) as a function of a whole list of samples, with
no sequencer and no waiting: what the statements compare the machine's PKT with. -/

namespace Sys2Proof.Machine

/-- The block R160 forms from the samples of the packet not yet taken: `SB[0..27]` (R163). -/
def blockSamples (xs : List Sample) : List Sample :=
  let taken := xs.take 28
  taken ++ List.replicate (28 - taken.length) 0

/-- The transfers of one turn of R160's loop: the block's samples taken, then the chunk's bytes pushed (R55). -/
def blockTransfers (xs : List Sample) (w : Work) : List Transfer :=
  (xs.take 28).map .sample ++ (chunkBytes w).map .byte

/-- One turn of R160's loop, `xs` being the samples of the packet not yet taken. -/
def packetBlock (xs : List Sample) (s : State) : State :=
  let last := decide (xs.length ≤ 28)
  let e := encodeBlock Config.hw (blockSamples xs) last s.fh1.toInt s.fh2.toInt s.hist1.toInt s.hist2.toInt
    s.loopFlag s.loopStart s.loopEnd s.bidx
  { s with
    work := e.work
    last := last
    stop := e.stop
    fh1 := BitVec.ofInt 16 e.fh1
    fh2 := BitVec.ofInt 16 e.fh2
    hist1 := BitVec.ofInt 40 e.hist1
    hist2 := BitVec.ofInt 40 e.hist2
    lastHeader := e.work.hdr
    bidx := s.bidx + 1
    nbytes := s.nbytes + 16
    trace := s.trace ++ blockTransfers xs e.work }

/-- R160's two loops over the samples `xs` not yet taken: blocks while samples are left and no stop has fired, then the
samples left taken and discarded (R167). The first argument bounds the number of blocks. -/
def packetLoop : Nat → List Sample → State → State
  | 0, _, s => s
  | k + 1, xs, s =>
    if xs = [] then s
    else
      let s' := packetBlock xs s
      if s'.stop then { s' with trace := s'.trace ++ (xs.drop 28).map .sample }
      else packetLoop k (xs.drop 28) s'

/-- PKT from a state whose command word has been taken, with all its samples `xs` at hand and `rest` offered after them,
and a host that accepts everything: the assignments before the loop, the loops, and the response (R160). -/
def packetResult (loopFlag : Bool) (loopEnd loopStart : LoopIdx) (xs rest : List Sample) (s : State) : State :=
  let s0 := latchPkt loopFlag (BitVec.ofNat 24 xs.length) loopEnd loopStart s
  let s1 := packetLoop xs.length xs s0
  { s1 with
    phase := .idle
    running := .nothing
    emitOff := if xs = [] then s.emitOff else 0
    remain := 0
    smp := rest
    trace := s1.trace ++ [.rsp (0#1 ++ s1.nbytes)] }

/-- The bytes among some transfers, in order. -/
def bytesOf (ts : List Transfer) : List Byte :=
  ts.filterMap fun | .byte b => some b | .cmd _ => none | .sample _ => none | .rsp _ => none

/-- The response words among some transfers, in order. -/
def rspsOf (ts : List Transfer) : List RspWord :=
  ts.filterMap fun | .rsp w => some w | .cmd _ => none | .sample _ => none | .byte _ => none

/-- The samples among some transfers, in order. -/
def samplesOf (ts : List Transfer) : List Sample :=
  ts.filterMap fun | .sample v => some v | .cmd _ => none | .byte _ => none | .rsp _ => none

end Sys2Proof.Machine
end

