-- ==== Sys2Proof/Safety.lean ====
section
/-! DEFINITION. What the claims call safe: the ranges and widths of the registers, the invariant of the machine, the
alignment of the output stream, and the waits that are all a step can end in besides a next state. -/

namespace Sys2Proof.Machine

/-- A clamped sample's range (R22, R102). -/
abbrev ClampedRange (x : Int) : Prop := -30720 ≤ x ∧ x ≤ 30719

/-- A header byte this hardware can form: predictor index 0..4 in the high nibble, shift 0..11 in the low one (R78). -/
abbrev HeaderLegal (b : Byte) : Prop := b.toNat / 16 ≤ 4 ∧ b.toNat % 16 ≤ 11

/-- A flag byte a PKT's chunk can carry (R79, R145). -/
abbrev FlagLegal (b : Byte) : Prop := b = 0 ∨ b = 1 ∨ b = 2 ∨ b = 3 ∨ b = 6

/-- The range of a 40-bit register (R23, R28). -/
abbrev Hist40Range (x : Int) : Prop := -2 ^ 39 ≤ x ∧ x ≤ 2 ^ 39 - 1

/-- Every working register is within its range and width (R28, R103, R104, R111). -/
structure WorkFits (w : Work) : Prop where
  sb : w.sb.length ≤ 28
  c : ∀ x ∈ w.c, ClampedRange x
  r64 : ∀ row ∈ w.r64, ∀ r ∈ row, r.natAbs ≤ 7557120
  max64 : ∀ m ∈ w.max64, m ≤ 7557120
  min64 : w.min64 ≤ 1966080
  shift : w.shift ≤ 11
  p : Hist40Range w.p
  q : ∀ x ∈ w.q, -32768 ≤ x ∧ x ≤ 32767
  hdr : HeaderLegal w.hdr
  flg : FlagLegal w.flg

/-- What R160's counters say in each phase of a PKT: the blocks encoded and the samples left never exceed a packet of
2^24 - 1 samples, so BIDX and NBYTES cannot overflow (R26, R27). -/
def CountersFit (s : State) : Prop :=
  s.nbytes.toNat = 16 * s.bidx.toNat ∧
    match s.phase with
    | .idle => True
    | .fill => 28 * s.bidx.toNat + s.remain.toNat ≤ 2 ^ 24 - 1
    | .encode | .emit =>
      28 * (s.bidx.toNat + 1) ≤ 2 ^ 24 + 26 ∧
        (s.remain ≠ 0#24 → 28 * (s.bidx.toNat + 1) + s.remain.toNat ≤ 2 ^ 24 - 1)
    | .drain | .respond => 28 * s.bidx.toNat ≤ 2 ^ 24 + 26

/-- The invariant of the machine: it holds at reset, and every step and every move of the host keeps it. -/
structure State.Inv (s : State) : Prop where
  /-- The filter history is within the clamped range (R22). -/
  fh1 : ClampedRange s.fh1.toInt
  fh2 : ClampedRange s.fh2.toInt
  /-- LAST_HEADER is the header byte of a chunk (R21, R78). -/
  lastHeader : HeaderLegal s.lastHeader
  /-- The working registers are within their widths (R28). -/
  work : WorkFits s.work
  /-- In IDLE, and only there, no command is in progress (R30). -/
  running : s.phase = .idle ↔ s.running = .nothing
  /-- Blocks belong to a PKT (R30). -/
  pktPhase : s.phase = .fill ∨ s.phase = .encode ∨ s.phase = .drain → s.running = .pkt
  /-- Chunks belong to a PKT or are the terminator (R30). -/
  emitPhase : s.phase = .emit → s.running = .pkt ∨ s.running = .endStream
  /-- The offset inside EMIT is 0..15 (R30). -/
  emitOff : s.emitOff < 16
  /-- Outside EMIT no chunk is half pushed. -/
  emitOffZero : s.phase ≠ .emit → s.emitOff = 0
  /-- In FILL at least one sample is left, no stop has fired, and the block has at most its share (R160, R163). -/
  fill : s.phase = .fill → s.remain ≠ 0#24 ∧ s.stop = false ∧ s.work.sb.length ≤ blockTake s
  /-- In ENCODE the block has all of its 28 samples, and `last` says whether the packet has more (R163, R164). -/
  encode : s.phase = .encode → s.work.sb.length = 28 ∧ (s.last = true ↔ s.remain = 0#24)
  /-- In EMIT a PKT's chunk has its 14 payload bytes, and a stop is not on the packet's last block (R77, R145). -/
  emit : s.phase = .emit → s.running = .pkt → s.work.pay.length = 14 ∧ (s.stop = true → s.remain ≠ 0#24)
  /-- DRAIN follows a stop (R167). -/
  drain : s.phase = .drain → s.stop = true
  /-- The counters of a PKT (R25, R26, R27). -/
  counters : s.running = .pkt → CountersFit s

/-- The bytes accepted so far are whole chunks, but for the bytes of the one being pushed (R60, R61). -/
abbrev State.ChunkAligned (s : State) : Prop := s.out.length % 16 = s.emitOff

/-- The core waits for the host, for the reason named (R54, R228). -/
def State.Waits (s : State) : Fault → Prop
  | .waitCmd => s.phase = .idle ∧ s.cmd = []
  | .waitSample =>
    s.smp = [] ∧ (s.phase = .fill ∧ s.work.sb.length < min s.remain.toNat 28 ∨ s.phase = .drain ∧ s.remain ≠ 0#24)
  | .waitOut => s.phase = .emit ∧ s.outAccept = .upTo 0
  | .waitRsp => s.phase = .respond ∧ s.rspAccept = .upTo 0

/-- BIDX and NBYTES are within the largest values R26 and R27 give: 599187 blocks, 9586992 bytes. -/
abbrev State.CountersBounded (s : State) : Prop :=
  s.bidx.toNat ≤ 599187 ∧ s.nbytes.toNat ≤ 9586992

/-- How many command words have been taken and not yet answered: none in IDLE, else one (R53, R56). -/
abbrev State.unanswered (s : State) : Nat := if s.phase = .idle then 0 else 1

/-- The command words taken so far, oldest first. -/
def State.cmdsTaken (s : State) : List CmdWord :=
  s.trace.filterMap fun | .cmd w => some w | .sample _ => none | .byte _ => none | .rsp _ => none

/-- What is left of an acceptance after `k` items: an unlimited one stays, a limited one allowed them and falls by them
(R50). -/
abbrev AcceptsFewer (a : Accept) (k : Nat) (b : Accept) : Prop :=
  (a = .always → b = .always) ∧ ∀ n, a = .upTo n → k ≤ n ∧ b = .upTo (n - k)

/-- A value the quantizer gives: a multiple of 4096 from -32768 to 28672, or 32767 (R123). -/
abbrev QuantizerValue (q : Int) : Prop := q = 32767 ∨ ∃ k : Int, -8 ≤ k ∧ k ≤ 7 ∧ q = 4096 * k

/-- `C[i - 1]`, with `C[-1] = FH1`. -/
def histOne (c : List Int) (fh1 : Int) (i : Nat) : Int :=
  if i = 0 then fh1 else c.getD (i - 1) 0

/-- `C[i - 2]`, with `C[-1] = FH1` and `C[-2] = FH2` (R103). -/
def histTwo (c : List Int) (fh1 fh2 : Int) (i : Nat) : Int :=
  if i = 0 then fh2 else if i = 1 then fh1 else c.getD (i - 2) 0

/-- The packet of `n` samples is cut short at block `loopEnd`: that block is not the last, the loop is active, and it is
not `loopStart` too (R144, R145, R167). -/
abbrev StopsEarly (loopFlag : Bool) (n : SampleCount) (loopEnd loopStart : LoopIdx) : Prop :=
  loopFlag = true ∧ loopEnd ≠ loopStart ∧ 28 * (loopEnd.toNat + 1) < n.toNat

/-- The chunks a packet emits: `loopEnd + 1` where it is cut short, else one per 28 samples begun (R165). -/
def chunksOf (loopFlag : Bool) (n : SampleCount) (loopEnd loopStart : LoopIdx) : Nat :=
  if StopsEarly loopFlag n loopEnd loopStart then loopEnd.toNat + 1 else (n.toNat + 27) / 28

end Sys2Proof.Machine
end

