-- ==== Sys2Proof/Certificates/Slice0/Obligations.lean ====
section
/-! DEFINITION. The statements about the model. Each docstring names the rule of spec/ the statement comes from, and the
log entry where a clause rests on a choice of the model's. -/

open Sys2Proof Sys2Proof.Machine

/-! ## Encoding (spec/30_encoding.md) -/

/-- The command words and the illegal words spec/95_test_vectors.md V16 writes out decode as it says. -/
def Obligations.DecodeReadsTheWordsOfTheSpec : Prop :=
  decode 0x1000001C00000000 = some (.pkt false 28 0 0) ∧
  decode 0x1000001E00000000 = some (.pkt false 30 0 0) ∧
  decode 0x1100008C00030001 = some (.pkt true 140 3 1) ∧
  decode 0x11FFFFFFFFFFFFFF = some (.pkt true 16777215 65535 65535) ∧
  decode 0x2000000000000000 = some (.endStream false) ∧
  decode 0x2100000000000000 = some (.endStream true) ∧
  decode 0x0000000000000000 = none ∧
  decode 0x3000000000000000 = none ∧
  decode 0xF000000000000000 = none ∧
  decode 0x1200001C00000000 = none ∧
  decode 0x2000000000000001 = none ∧
  decode 0x2000001C00000000 = none

/-- Every command is well formed and its word decodes back to it, every operand at every value (R70 to R73). -/
def Obligations.DecodeOfEncodeIsTheCommand : Prop :=
  ∀ i : Instr, i.WellFormed ∧ decode (encode i) = some i

/-- A word that decodes to a command is the word of that command: no bit of a legal word is free (R70, R71). -/
def Obligations.EncodeOfDecodeIsTheWord : Prop :=
  ∀ (w : CmdWord) (i : Instr), decode w = some i → encode i = w

/-- The illegal words, by the prose of R74: `op` neither 1 nor 2, `rsv` not 000, or END with any of bits 55:0 set. The
masks of R71 refuse exactly the words whose fields are not well formed. -/
def Obligations.IllegalWordsAreThoseWithIllegalFields : Prop :=
  ∀ w : CmdWord,
    (decode w = none ↔
      (w.toNat / 2 ^ 60 ≠ 1 ∧ w.toNat / 2 ^ 60 ≠ 2) ∨ w.toNat / 2 ^ 57 % 8 ≠ 0 ∨
        (w.toNat / 2 ^ 60 = 2 ∧ w.toNat % 2 ^ 56 ≠ 0)) ∧
    (decode w = none ↔ (wordFields w).wellFormed = false)

/-- The operands of a decoded command are the bit fields of its word, unsigned (R72, R73). -/
def Obligations.OperandsAreTheBitFields : Prop :=
  (∀ (w : CmdWord) (f : Bool) (n : SampleCount) (le ls : LoopIdx), decode w = some (.pkt f n le ls) →
    f = decide (w.toNat / 2 ^ 56 % 2 = 1) ∧ n.toNat = w.toNat / 2 ^ 32 % 2 ^ 24 ∧
      le.toNat = w.toNat / 2 ^ 16 % 2 ^ 16 ∧ ls.toNat = w.toNat % 2 ^ 16) ∧
  (∀ (w : CmdWord) (f : Bool), decode w = some (.endStream f) → f = decide (w.toNat / 2 ^ 56 % 2 = 1))

/-! ## One step -/

/-- In IDLE, with the reset input released, a step takes the next command word and runs the command it decodes to. -/
def Obligations.StepRunsTheDecodedCommand : Prop :=
  ∀ (s : State) (w : CmdWord) (rest : List CmdWord) (i : Instr),
    s.resetIn = false → s.phase = .idle → s.cmd = w :: rest → decode w = some i →
      step s = exec i { s with cmd := rest, trace := s.trace ++ [.cmd w] }

/-- R200: an illegal word is taken and answered with 0x80000000, and nothing else changes. -/
def Obligations.IllegalWordIsOnlyAnswered : Prop :=
  ∀ (s : State) (w : CmdWord) (rest : List CmdWord) (a : Accept),
    s.Inv → s.resetIn = false → s.phase = .idle → s.cmd = w :: rest → decode w = none → s.rspAccept.take = some a →
      step s = .next { s with cmd := rest, trace := s.trace ++ [.cmd w, .rsp 0x80000000], rspAccept := a }

/-- An illegal word whose response the host does not accept yet leaves the core waiting in RESPOND, and the response
follows as soon as the host accepts it (R54, R200). -/
def Obligations.IllegalWordWaitsToBeAnswered : Prop :=
  ∀ (s : State) (w : CmdWord) (rest : List CmdWord),
    s.Inv → s.resetIn = false → s.phase = .idle → s.cmd = w :: rest → decode w = none → s.rspAccept = .upTo 0 →
      let t := { s with cmd := rest, trace := s.trace ++ [.cmd w], phase := .respond, running := .illegal }
      step s = .next t ∧ step t = .fault .waitRsp ∧
        step { t with rspAccept := .upTo 1 } =
          .next { s with cmd := rest, trace := s.trace ++ [.cmd w, .rsp 0x80000000] }

/-- A step is refused by the core exactly when the core waits for the host, for the reason the fault names, and no
command is ever without a meaning (R201, R228). -/
def Obligations.OnlyTheHostCanHoldTheCore : Prop :=
  ∀ s : State, s.resetIn = false →
    (∀ f, step s = .fault f ↔ s.Waits f) ∧ (∀ r, step s ≠ .refused r)

/-- A step runs the command in progress to its response or to a transfer the host holds up. That ONE step goes so far is
the model's choice of the grain of a step (log entry 1, DESIGN CHOICE); that the core gets there at all, and never stops by
itself, is R228. -/
def Obligations.EveryStepRunsToIdleOrToTheHost : Prop :=
  ∀ s t : State, s.resetIn = false → step s = .next t → t.phase = .idle ∨ ∃ f, t.Waits f

/-! ## Reset and the invariant -/

/-- The state after reset, register by register, with empty channels and no transfer made on any of them (R34). -/
def Obligations.ResetLeavesTheValuesOfTheTable : Prop :=
  State.reset.phase = .idle ∧ State.reset.lastHeader = 0x00 ∧ State.reset.fh1 = 0 ∧ State.reset.fh2 = 0 ∧
  State.reset.hist1 = 0 ∧ State.reset.hist2 = 0 ∧ State.reset.loopFlag = false ∧ State.reset.loopStart = 0 ∧
  State.reset.loopEnd = 0 ∧ State.reset.remain = 0 ∧ State.reset.bidx = 0 ∧ State.reset.nbytes = 0 ∧
  State.reset.cmd = [] ∧ State.reset.smp = [] ∧ State.reset.trace = []

/-- Asserting the reset input, in the middle of a command too, abandons the command: while it is asserted a step transfers
nothing, and its release leaves the state after reset, whatever the host offered meanwhile and however many steps passed;
the transfers made stay made (R220, R221). The model's own in this: the host's side of the handshakes does not change (log
entry 3), its earlier offers leave the channels (4) and so do those made during reset (15), the working registers, `last`
and `stop` are `State.reset`'s (2), and asserting reset takes effect at once (14). -/
def Obligations.ResetAbandonsTheCommand : Prop :=
  (∀ s : State,
    let t := s.host (.driveReset true)
    t.resetIn = true ∧ t.trace = s.trace ∧ t.outAccept = s.outAccept ∧ t.rspAccept = s.rspAccept ∧
      step t = .next t) ∧
  (∀ s : State, s.resetIn = true →
    (∃ t, step s = .next t ∧ t.resetIn = true ∧ t.trace = s.trace ∧ t.outAccept = s.outAccept ∧
      t.rspAccept = s.rspAccept) ∧
    s.host (.driveReset false) =
      { State.reset with trace := s.trace, outAccept := s.outAccept, rspAccept := s.rspAccept })

/-- The invariant holds after reset. The working registers' values in that state, which R34 leaves unspecified, are the
model's (log entry 2). -/
def Obligations.ResetMeetsTheInvariant : Prop := State.reset.Inv

/-- Every step keeps the invariant: the ranges of the histories and working registers, the legal header byte, the
sequencer's phases, and counters that cannot overflow (R22, R26 to R28, R30, R78). Where the step holds the core in reset,
the working registers it leaves, whose ranges the invariant speaks of, are the model's (log entry 2). -/
def Obligations.EveryStepKeepsTheInvariant : Prop :=
  ∀ s t : State, s.Inv → step s = .next t → t.Inv

/-- Every move of the host keeps the invariant, and none but driving the reset input reaches a register of the core (R20,
R220). The model's own in this: releasing an input that is not asserted changes nothing (log entry 15), and the working
registers asserting it leaves, which the invariant speaks of, are those of log entry 2. -/
def Obligations.TheHostReachesNoRegister : Prop :=
  ∀ (s : State) (m : HostMove), (s.Inv → (s.host m).Inv) ∧
    ((∀ b, m ≠ .driveReset b) →
      { s.host m with cmd := s.cmd, smp := s.smp, outAccept := s.outAccept, rspAccept := s.rspAccept } = s) ∧
    (s.resetIn = false → s.host (.driveReset false) = s)

/-- A packet has at most 599187 blocks and a command pushes at most 9586992 bytes, so neither BIDX nor NBYTES overflows
(R26, R27): a step from within these bounds stays within them, in every phase, IDLE too, where both keep their last
values. -/
def Obligations.CountersNeverOverflow : Prop :=
  ∀ s t : State, s.Inv → s.CountersBounded → step s = .next t → t.CountersBounded

/-! ## PKT (spec/43_stream_commands.md) -/

/-- With its samples offered and a host that accepts everything, PKT runs to its response and leaves what the pseudocode of
R160 leaves, transfers included and in its order (R55). Of the fields it also speaks of, the spec does not give a machine
`emitOff`, `last` and `stop` (log entry 9), nor what the working registers hold after the packet (log entry 10). -/
def Obligations.PktRunsThePseudocode : Prop :=
  ∀ (f : Bool) (n : SampleCount) (le ls : LoopIdx) (xs rest : List Sample) (s : State),
    s.smp = xs ++ rest → xs.length = n.toNat → s.outAccept = .always → s.rspAccept = .always →
      exec (.pkt f n le ls) s = .next (packetResult f le ls xs rest s)

/-- R162: a packet of zero samples takes no sample, emits no chunk, leaves LAST_HEADER and responds with 0 bytes; it does
latch the loop registers and zero the histories. -/
def Obligations.PktOfZeroSamplesOnlyResponds : Prop :=
  ∀ (f : Bool) (le ls : LoopIdx) (s : State) (a : Accept), s.rspAccept.take = some a →
    exec (.pkt f 0 le ls) s = .next
      { s with
        phase := .idle, running := .nothing, loopFlag := f, loopStart := ls, loopEnd := le, remain := 0, bidx := 0
        nbytes := 0, fh1 := 0, fh2 := 0, hist1 := 0, hist2 := 0, stop := false, rspAccept := a
        trace := s.trace ++ [.rsp 0x00000000] }

/-- A packet whose first sample is not offered yet waits for it with its operands latched and both history pairs zeroed
(R54, R161). -/
def Obligations.PktZeroesBothHistoriesFirst : Prop :=
  ∀ (f : Bool) (n : SampleCount) (le ls : LoopIdx) (s : State), n ≠ 0 → s.smp = [] →
    exec (.pkt f n le ls) s = .next
      { s with
        phase := .fill, running := .pkt, loopFlag := f, loopStart := ls, loopEnd := le, remain := n, bidx := 0
        nbytes := 0, fh1 := 0, fh2 := 0, hist1 := 0, hist2 := 0, stop := false
        work := { s.work with sb := [] } }

/-- The transfers of a packet, and what it leaves in the histories, do not depend on what came before it in the stream
(R161, R204): two states that agree on the samples offered and on what the host accepts, whatever transfers each has made
and whatever its registers hold, make the same further transfers. -/
def Obligations.PacketsAreIndependent : Prop :=
  ∀ (f : Bool) (n : SampleCount) (le ls : LoopIdx) (s t : State),
    s.smp = t.smp → s.outAccept = t.outAccept → s.rspAccept = t.rspAccept →
      ∃ u v ts, exec (.pkt f n le ls) s = .next u ∧ exec (.pkt f n le ls) t = .next v ∧
        u.trace = s.trace ++ ts ∧ v.trace = t.trace ++ ts ∧ u.smp = v.smp ∧ u.phase = v.phase ∧ u.fh1 = v.fh1 ∧ u.fh2 = v.fh2 ∧
        u.hist1 = v.hist1 ∧ u.hist2 = v.hist2 ∧ u.bidx = v.bidx ∧ u.nbytes = v.nbytes ∧ u.remain = v.remain

/-- Where the loop is not active, the loop operands have no effect on the transfers (R72). -/
def Obligations.LoopOperandsAreReadOnlyInALoop : Prop :=
  ∀ (n : SampleCount) (le ls le' ls' : LoopIdx) (s : State),
    ∃ u v, exec (.pkt false n le ls) s = .next u ∧ exec (.pkt false n le' ls') s = .next v ∧
      u.trace = v.trace ∧ v = { u with loopStart := ls', loopEnd := le' }

/-- A packet takes its `nsamples` samples and no other, after a loop-end stop too; of fewer offered it takes all, and waits
for the rest (R55, R167, R223). -/
def Obligations.PktTakesExactlyItsSamples : Prop :=
  ∀ (f : Bool) (n : SampleCount) (le ls : LoopIdx) (s : State), s.outAccept = .always →
    ∃ t, exec (.pkt f n le ls) s = .next t ∧ t.smp = s.smp.drop n.toNat ∧
      t.taken = s.taken ++ s.smp.take n.toNat ∧
      (s.smp.length < n.toNat → step { t with resetIn := false } = .fault .waitSample)

/-- A packet emits `ceil(S / 28)` chunks, or `loop_end + 1` where it is cut short, and its response counts their bytes
(R165, R167, R75). -/
def Obligations.PktEmitsOneChunkPerBlock : Prop :=
  ∀ (f : Bool) (n : SampleCount) (le ls : LoopIdx) (s : State),
    n.toNat ≤ s.smp.length → s.outAccept = .always → s.rspAccept = .always →
      ∃ t, exec (.pkt f n le ls) s = .next t ∧ t.phase = .idle ∧
        t.out.length = s.out.length + 16 * chunksOf f n le ls ∧
        t.rsp = s.rsp ++ [BitVec.ofNat 32 (16 * chunksOf f n le ls)]

/-- After a packet LAST_HEADER is the header byte of the last chunk it emitted (R166), and the END that follows repeats it
in the terminator (R171). -/
def Obligations.TerminatorRepeatsTheLastHeader : Prop :=
  ∀ (f : Bool) (n : SampleCount) (le ls : LoopIdx) (s : State),
    n ≠ 0 → n.toNat ≤ s.smp.length → s.outAccept = .always → s.rspAccept = .always →
      ∃ t u h, exec (.pkt f n le ls) s = .next t ∧ exec (.endStream false) t = .next u ∧
        t.lastHeader = h ∧ t.out[t.out.length - 16]? = some h ∧
        u.out = t.out ++ (h :: 7 :: List.replicate 14 0)

/-- What PKT leaves alone in every case, waiting or not: the commands offered, the reset input, the samples and transfers
that come before; what the host accepts on OUT and RSP falls by the items it has accepted (log entry 3); the loop registers
hold the operands; without a chunk LAST_HEADER keeps its value (R24, R61, R166). -/
def Obligations.PktChangesOnlyItsRegisters : Prop :=
  ∀ (f : Bool) (n : SampleCount) (le ls : LoopIdx) (s : State),
    ∃ t ts, exec (.pkt f n le ls) s = .next t ∧
      t.cmd = s.cmd ∧ t.resetIn = s.resetIn ∧
      t.loopFlag = f ∧ t.loopStart = ls ∧ t.loopEnd = le ∧
      t.trace = s.trace ++ ts ∧ (∀ w, Transfer.cmd w ∉ ts) ∧
      s.smp = samplesOf ts ++ t.smp ∧
      AcceptsFewer s.outAccept (bytesOf ts).length t.outAccept ∧
      AcceptsFewer s.rspAccept (rspsOf ts).length t.rspAccept ∧
      ((bytesOf ts).length < 16 → t.lastHeader = s.lastHeader)

/-! ## END (spec/43_stream_commands.md) -/

/-- END with `loop_flag` = 0, and a host that accepts the sixteen bytes and the response, emits one terminator chunk from
LAST_HEADER, responds with 16 bytes, and leaves the stream
state at its reset values; nothing else changes (R170, R171, R172). That NBYTES is among them is log entry 5. -/
def Obligations.EndEmitsTheTerminator : Prop :=
  ∀ (s : State) (a c : Accept),
    (s.outAccept = .always ∧ c = .always ∨ ∃ k, s.outAccept = .upTo (k + 16) ∧ c = .upTo k) →
    s.rspAccept.take = some a →
    exec (.endStream false) s = .next
      { s with
        phase := .idle, running := .nothing, emitOff := 0, lastHeader := 0x00, fh1 := 0, fh2 := 0, hist1 := 0
        hist2 := 0, loopFlag := false, loopStart := 0, loopEnd := 0, remain := 0, bidx := 0, nbytes := 0
        outAccept := c, rspAccept := a
        trace := s.trace ++ (s.lastHeader :: 7 :: List.replicate 14 0).map .byte ++ [.rsp 0x00000010] }

/-- END with `loop_flag` = 1 emits nothing, responds with 0 bytes, and leaves the stream state at its reset values; nothing
else changes (R170, R172). That NBYTES is among them is log entry 5. -/
def Obligations.EndOfALoopEmitsNothing : Prop :=
  ∀ (s : State) (a : Accept), s.rspAccept.take = some a →
    exec (.endStream true) s = .next
      { s with
        phase := .idle, running := .nothing, lastHeader := 0x00, fh1 := 0, fh2 := 0, hist1 := 0
        hist2 := 0, loopFlag := false, loopStart := 0, loopEnd := 0, remain := 0, bidx := 0, nbytes := 0
        rspAccept := a
        trace := s.trace ++ [.rsp 0x00000000] }

/-- END whose host accepts only `k` < 16 more bytes pushes the first `k` of the terminator and waits with the next one; no
register but its own count and the sequencer changes (R54, R61, R170). -/
def Obligations.EndPushesWhatTheHostAccepts : Prop :=
  ∀ (s : State) (k : Nat), k < 16 → s.outAccept = .upTo k →
    exec (.endStream false) s = .next
      { s with
        phase := .emit, running := .endStream, emitOff := k, nbytes := 0, outAccept := .upTo 0
        trace := s.trace ++ ((s.lastHeader :: 7 :: List.replicate 14 0).take k).map .byte }

/-! ## The channels (spec/20_memory.md) -/

/-- R56 and R66: a step takes a command word only in IDLE, one word, the first offered, before any other transfer; inside a
command it takes none. -/
def Obligations.CommandsAreTakenOnlyInIdle : Prop :=
  ∀ s t : State, s.resetIn = false → step s = .next t →
    (s.phase ≠ .idle → t.cmd = s.cmd ∧ t.cmdsTaken = s.cmdsTaken) ∧
    (s.phase = .idle → ∃ w ts, s.cmd = w :: t.cmd ∧ t.cmdsTaken = s.cmdsTaken ++ [w] ∧
      t.trace = s.trace ++ .cmd w :: ts)

/-- R53: each command word taken is answered by exactly one response word: what is taken and unanswered is 0 in IDLE and 1
in any other phase, and every step keeps the count. -/
def Obligations.EveryCommandHasOneResponse : Prop :=
  ∀ s t : State, s.resetIn = false → step s = .next t →
    s.cmdsTaken.length = s.rsp.length + s.unanswered → t.cmdsTaken.length = t.rsp.length + t.unanswered

/-- Transfers made stay made, through reset too: nothing accepted is rolled back, lost or reordered (R50, R61, R221). -/
def Obligations.AcceptedTransfersStay : Prop :=
  ∀ s t : State, step s = .next t → s.trace <+: t.trace

/-- Chunks go out whole: the bytes accepted are a multiple of 16, but for the chunk being pushed (R60, R61). -/
def Obligations.ChunksGoOutWhole : Prop :=
  ∀ s t : State, s.Inv → s.resetIn = false → s.ChunkAligned → step s = .next t → t.ChunkAligned

/-- R225: a slow sink never changes the bytes. A step whose host accepts only so many bytes and response words and then
accepts the rest ends where the step of a host that accepts everything ends. -/
def Obligations.BackPressureNeverChangesTheBytes : Prop :=
  ∀ (s t : State) (a b : Accept), s.resetIn = false →
    step { s with outAccept := a, rspAccept := b } = .next t →
      let accepting (u : State) : State := { u with outAccept := .always, rspAccept := .always }
      (t.phase = .emit ∨ t.phase = .respond → step (accepting t) = step (accepting s)) ∧
      (¬(t.phase = .emit ∨ t.phase = .respond) → step (accepting s) = .next (accepting t))

/-- R224: it does not matter when the host offers the samples. A step that runs out of samples and goes on when more are
offered ends where the step of a host that offered them at once ends. -/
def Obligations.SamplesMayBeOfferedAtAnyTime : Prop :=
  ∀ (s t : State) (vs : List Sample), s.resetIn = false → vs ≠ [] → step s = .next t →
    (t.phase = .fill ∨ t.phase = .drain →
      step (t.host (.offerSamples vs)) = step (s.host (.offerSamples vs))) ∧
    (¬(t.phase = .fill ∨ t.phase = .drain) → step (s.host (.offerSamples vs)) = .next (t.host (.offerSamples vs)))

/-! ## Predictor selection (spec/40_predictor_select.md) -/

/-- R102: every sample is clamped to [-30720, 30719] first, and everything the encoder computes reads the clamped samples:
two blocks with the same clamped samples differ in nothing but `SB`. -/
def Obligations.SamplesAreClampedFirst : Prop :=
  (∀ v : Sample, clampSample v = max (-30720) (min 30719 v.toInt)) ∧
  (∀ (sb : List Sample) (i : Nat), i < sb.length → (clampBlock sb)[i]? = (sb[i]?).map clampSample) ∧
  (∀ (cfg : Config) (sb sb' : List Sample) (last : Bool) (fh1 fh2 h1 h2 : Int) (f : Bool) (ls le : LoopIdx)
      (b : BlockIdx), clampBlock sb = clampBlock sb' →
    encodeBlock cfg sb last fh1 fh2 h1 h2 f ls le b =
      (let e := encodeBlock cfg sb' last fh1 fh2 h1 h2 f ls le b
       { e with work := { e.work with sb := sb } }))

/-- R100: the ten coefficients. R103: row `p` of the scan is the residuals of candidate `p`, every one from the same history; the residual at sample
`i`, written out, with its bound; candidate 0's is the sample itself, with its own bound. -/
def Obligations.ResidualsAreTheFilterOutputs : Prop :=
  ([0, 1, 2, 3, 4] : List PredIdx).map K1N = [0, -64, -115, -98, -122] ∧
  ([0, 1, 2, 3, 4] : List PredIdx).map K2N = [0, 0, 52, 55, 60] ∧
  ∀ (p : PredIdx) (fh1 fh2 : Int) (c : List Int) (i : Nat), i < c.length →
    (scanBlock c fh1 fh2)[p.val]? = some (residuals p fh1 fh2 c) ∧
    (residuals p fh1 fh2 c)[i]? =
      some (64 * c.getD i 0 + K1N p * histOne c fh1 i + K2N p * histTwo c fh1 fh2 i) ∧
    (residuals 0 fh1 fh2 c)[i]? = some (64 * c.getD i 0) ∧
    (ClampedRange fh1 → ClampedRange fh2 → (∀ x ∈ c, ClampedRange x) →
      (∀ r ∈ residuals p fh1 fh2 c, r.natAbs ≤ 7557120) ∧ ∀ r ∈ residuals 0 fh1 fh2 c, r.natAbs ≤ 1966080)

/-- R104: the max-residual of candidate `p` is the largest magnitude of its residuals, starting from 0, with the bound of
any candidate and that of candidate 0. -/
def Obligations.MaxResidualIsTheLargestMagnitude : Prop :=
  ∀ (p : PredIdx) (c : List Int) (fh1 fh2 : Int),
    let ms := maxResiduals (scanBlock c fh1 fh2)
    let rs := residuals p fh1 fh2 c
    ∃ m, ms[p.val]? = some m ∧ (∀ r ∈ rs, r.natAbs ≤ m) ∧ (m = 0 ∨ ∃ r ∈ rs, r.natAbs = m) ∧
      (ClampedRange fh1 → ClampedRange fh2 → (∀ x ∈ c, ClampedRange x) → m ≤ 7557120 ∧ ms.getD 0 0 ≤ 1966080)

/-- R106: the first candidate whose max-residual is at most 7.0 ends the scan, leaves its max-residual as the minimum, and
forces index 0; where there is none, the lowest index among the smallest max-residuals is chosen. -/
def Obligations.SelectionTakesTheLowestMinimum : Prop :=
  ∀ ms : List Nat, ms.length = 5 →
    (∀ p, p < 5 → ms.getD p 0 ≤ 448 → (∀ q, q < p → 448 < ms.getD q 0) → select ms = (0, ms.getD p 0)) ∧
    ((∀ m ∈ ms, 448 < m) →
      ∃ p : PredIdx, select ms = (p, ms.getD p.val 0) ∧ (∀ q, q < 5 → ms.getD p.val 0 ≤ ms.getD q 0) ∧
        ∀ q, q < p.val → ms.getD p.val 0 < ms.getD q 0)

/-- `EncodeBlock` (R147), step by step: what `EncodeBlock` leaves in every register is what the function of its step gives, from the
registers the steps before it left and the histories the block entered with. Whether or not the early exit fires, the
quantizer runs on the residuals of the chosen index with the shift of the minimum, and the filter history is the last two
clamped samples (R105, R120). `P` holds the predicted value of the last sample quantized (R121; that it stands after the
block is log entry 10). -/
def Obligations.EncodeBlockRunsItsSteps : Prop :=
  ∀ (cfg : Config) (sb : List Sample) (last : Bool) (fh1 fh2 h1 h2 : Int) (f : Bool) (ls le : LoopIdx) (b : BlockIdx),
    let e := encodeBlock cfg sb last fh1 fh2 h1 h2 f ls le b
    let w := e.work
    let qd := quantize cfg w.idx w.shift (residuals w.idx fh1 fh2 w.c) 0 h1 h2
    w.sb = sb ∧ w.c = clampBlock sb ∧
      w.r64 = ([0, 1, 2, 3, 4] : List PredIdx).map (fun p => residuals p fh1 fh2 w.c) ∧ w.max64 = w.r64.map maxAbs ∧
      (w.idx, w.min64) = select w.max64 ∧ (e.fh1 = w.c.getD 27 0 ∧ e.fh2 = w.c.getD 26 0) ∧
      w.shift = shiftOf cfg w.min64 ∧ (w.q = qd.q ∧ w.p = qd.p ∧ e.hist1 = qd.hist1 ∧ e.hist2 = qd.hist2) ∧
      w.code = w.q.map codeOf ∧ w.pay = packCodes w.code ∧ w.hdr = headerByte w.idx w.shift ∧
      (w.flg, e.stop) = flagOf last f b ls le

/-- After an early exit the block is quantized with index 0 against its own clamped samples, and with the shift of the
small minimum (R107). -/
def Obligations.EarlyExitQuantizesTheSamplesThemselves : Prop :=
  ∀ (cfg : Config) (sb : List Sample) (last : Bool) (fh1 fh2 h1 h2 : Int) (f : Bool) (ls le : LoopIdx) (b : BlockIdx),
    let e := encodeBlock cfg sb last fh1 fh2 h1 h2 f ls le b
    e.work.min64 ≤ 448 →
      e.work.idx = 0 ∧
      e.work.q = (quantize cfg 0 (shiftOf cfg e.work.min64) ((clampBlock sb).map (64 * ·)) 0 h1 h2).q

/-- R111: the shift as a table of the minimum's integer part, for any no-hit value; and the minimum of a block never
exceeds 30720. -/
def Obligations.ShiftFollowsTheTable : Prop :=
  (∀ (cfg : Config) (m : Nat),
    (m / 64 ≤ 6 → shiftOf cfg m = cfg.SHIFT_NOHIT) ∧
    (∀ s, 1 ≤ s → s ≤ 11 → 7 * 2 ^ (11 - s) ≤ m / 64 → m / 64 ≤ 7 * 2 ^ (12 - s) - 1 → shiftOf cfg m = s) ∧
    (14336 ≤ m / 64 → m / 64 ≤ 30719 → shiftOf cfg m = 0) ∧
    (m / 64 = 30720 → shiftOf cfg m = 1)) ∧
  (∀ (cfg : Config) (sb : List Sample) (last : Bool) (fh1 fh2 h1 h2 : Int) (f : Bool) (ls le : LoopIdx) (b : BlockIdx),
    (encodeBlock cfg sb last fh1 fh2 h1 h2 f ls le b).work.min64 / 64 ≤ 30720)

/-! ## The quantizer (spec/41_quantizer.md) -/

/-- R121: `P` before its saturation is the exact sum rounded down by less than 2^-16, the residual itself unrounded; with
index 0 or 1 nothing is rounded (R127); then `P` is saturated to 40 bits. -/
def Obligations.OnlyTheHistoryTermIsRounded : Prop :=
  ∀ (idx : PredIdx) (r64 h1 h2 : Int),
    let acc := 64 * (r64 * 1024) + K1N idx * h1 + K2N idx * h2
    let p := predictExact Config.hw idx r64 h1 h2
    64 * p ≤ acc ∧ acc < 64 * p + 64 ∧
      p = r64 * 1024 + (K1N idx * h1 + K2N idx * h2) / 64 ∧
      (idx = 0 ∨ idx = 1 → 64 * p = acc) ∧
      predictValue Config.hw idx r64 h1 h2 = max (-2 ^ 39) (min (2 ^ 39 - 1) p)

/-- R123: the quantized value is the multiple of 4096 nearest to the scaled value, halves upward, clamped to 16 bits; so it
is a multiple of 4096 or 32767. -/
def Obligations.QuantizerRoundsToTheNearestStep : Prop :=
  ∀ (shift : Nat) (p : Int),
    (∀ n : Int, roundStep Config.hw shift p = 4096 * n ↔
      (4096 * n - 2048) * 65536 ≤ p * 2 ^ shift ∧ p * 2 ^ shift < (4096 * n + 2048) * 65536) ∧
    quantizeValue Config.hw shift p = max (-32768) (min 32767 (roundStep Config.hw shift p)) ∧
    QuantizerValue (quantizeValue Config.hw shift p)

/-- R124: the step back, `Q >>a SHIFT`, is exact for every quantized value but 32767, whose results are listed; for every
value it is the floor. -/
def Obligations.ReconstructedStepIsTheFloor : Prop :=
  (∀ (q : Int) (s : Nat), asr q s * 2 ^ s ≤ q ∧ q < (asr q s + 1) * 2 ^ s) ∧
  (∀ (q : Int) (s : Nat), QuantizerValue q → q ≠ 32767 → s ≤ 12 → asr q s * 2 ^ s = q) ∧
  (∀ s, s ≤ 12 →
    asr 32767 s = [32767, 16383, 8191, 4095, 2047, 1023, 511, 255, 127, 63, 31, 15, 7].getD s 0)

/-- R126: within a block, a quantizer that goes on from the history another left gives what one run over all the residuals
gives: the reconstruction history is carried from sample to sample. -/
def Obligations.QuantizerCarriesItsHistory : Prop :=
  ∀ (cfg : Config) (idx : PredIdx) (shift : Nat) (rs rs' : List Int) (p h1 h2 : Int),
    let a := quantize cfg idx shift rs p h1 h2
    let b := quantize cfg idx shift rs' a.p a.hist1 a.hist2
    quantize cfg idx shift (rs ++ rs') p h1 h2 = ⟨a.q ++ b.q, b.p, b.hist1, b.hist2⟩

/-- R125: after a sample `HIST2` is the old `HIST1`, and `HIST1` is what the quantized value stands for less what was
asked, saturated to 40 bits. -/
def Obligations.HistoryIsTheQuantizationError : Prop :=
  ∀ (idx : PredIdx) (shift : Nat) (rs : List Int) (r p0 h1 h2 : Int),
    let b := quantize Config.hw idx shift rs p0 h1 h2
    let e := quantize Config.hw idx shift (rs ++ [r]) p0 h1 h2
    ∃ q, e.q = b.q ++ [q] ∧ e.p = predictValue Config.hw idx r b.hist1 b.hist2 ∧
      q = quantizeValue Config.hw shift e.p ∧ e.hist2 = b.hist1 ∧
      e.hist1 = max (-2 ^ 39) (min (2 ^ 39 - 1) (q / 2 ^ shift * 65536 - e.p))

/-- The filter history a block of 28 samples leaves is its last clamped sample and the one before it (R105), and all four
histories fit their registers, so storing them loses nothing, from any registers (R22, R23, R125). -/
def Obligations.HistoriesFitTheirRegisters : Prop :=
  ∀ (sb : List Sample) (last : Bool) (fh1 fh2 : Sample) (h1 h2 : HistWord) (f : Bool) (ls le : LoopIdx) (b : BlockIdx),
    let e := encodeBlock Config.hw sb last fh1.toInt fh2.toInt h1.toInt h2.toInt f ls le b
    (sb.length = 28 → e.fh1 = clampSample (sb.getD 27 0) ∧ e.fh2 = clampSample (sb.getD 26 0)) ∧
    (BitVec.ofInt 16 e.fh1).toInt = e.fh1 ∧ (BitVec.ofInt 16 e.fh2).toInt = e.fh2 ∧
      (BitVec.ofInt 40 e.hist1).toInt = e.hist1 ∧ (BitVec.ofInt 40 e.hist2).toInt = e.hist2

/-! ## Packing, header and flag (spec/42_packer_chunk.md) -/

/-- R143: each payload byte gives back the top four bits of the two quantized samples it was made of, the even one from the
low nibble; shifted left by 12 a code is the quantized sample, but for 32767, which gives 28672. -/
def Obligations.PackingRoundTrips : Prop :=
  (∀ (qs : List Int), qs.length = 28 →
    ∀ j, j < 14 →
      ((packCodes (qs.map codeOf)).getD j 0).extractLsb' 0 4 = (BitVec.ofInt 16 (qs.getD (2 * j) 0)).extractLsb' 12 4 ∧
      ((packCodes (qs.map codeOf)).getD j 0).extractLsb' 4 4 =
        (BitVec.ofInt 16 (qs.getD (2 * j + 1) 0)).extractLsb' 12 4) ∧
  (∀ q : Int, QuantizerValue q → (codeOf q).toInt * 4096 = if q = 32767 then 28672 else q)

/-- R142: with an index 0..4 and a shift 0..12 the header byte is `16 * IDX + SHIFT`: neither mask removes anything. -/
def Obligations.HeaderHoldsIndexAndShift : Prop :=
  ∀ (idx : PredIdx) (shift : Nat), shift ≤ 12 → (headerByte idx shift).toNat = 16 * idx.val + shift

/-- R78: the header of a block is its index and shift, one of sixty values; at `SHIFT_NOHIT` = 12 the only further value is
0x0C, of the blocks whose minimum is below 7. -/
def Obligations.BlockHeadersAreLegal : Prop :=
  ∀ (cfg : Config) (sb : List Sample) (last : Bool) (fh1 fh2 h1 h2 : Int) (f : Bool) (ls le : LoopIdx) (b : BlockIdx),
    let w := (encodeBlock cfg sb last fh1 fh2 h1 h2 f ls le b).work
    (cfg.SHIFT_NOHIT = 0 → HeaderLegal w.hdr ∧ w.hdr.toNat / 16 = w.idx.val ∧ w.hdr.toNat % 16 = w.shift) ∧
    (cfg.SHIFT_NOHIT = 12 → (w.min64 < 448 → w.hdr = 0x0C) ∧ (448 ≤ w.min64 → HeaderLegal w.hdr))

/-- R144: the rows of the flag table, in the order of their priority; only the row LoopEnd of a block that is not the last
stops the packet. -/
def Obligations.FlagFollowsTheTable : Prop :=
  ∀ (b : BlockIdx) (ls le : LoopIdx),
    flagOf false false b ls le = (0, false) ∧
    (b.toNat = ls.toNat → flagOf false true b ls le = (6, false)) ∧
    (b.toNat ≠ ls.toNat → b.toNat = le.toNat → flagOf false true b ls le = (3, true)) ∧
    (b.toNat ≠ ls.toNat → b.toNat ≠ le.toNat → flagOf false true b ls le = (2, false)) ∧
    flagOf true false b ls le = (1, false) ∧
    flagOf true true b ls le = (3, false)

/-- R147: the flag and the stop do not depend on the samples, and nothing else depends on the position and the loop
operands. -/
def Obligations.FlagAndSamplesDoNotMix : Prop :=
  ∀ (cfg : Config) (sb : List Sample) (fh1 fh2 h1 h2 : Int) (last last' f f' : Bool) (ls le ls' le' : LoopIdx)
    (b b' : BlockIdx),
    let e := encodeBlock cfg sb last fh1 fh2 h1 h2 f ls le b
    let e' := encodeBlock cfg sb last' fh1 fh2 h1 h2 f' ls' le' b'
    (e.work.flg, e.stop) = flagOf last f b ls le ∧
      e' = { e with work := { e.work with flg := e'.work.flg }, stop := e'.stop }

/-- The chunk of a block of 28 samples is sixteen bytes: the header byte, a flag byte the spec lets a PKT emit, and then the
fourteen payload bytes in order, each the codes of two quantized samples, the earlier one in the low nibble (R76, R77, R79,
R80, R140, R141, R145). -/
def Obligations.ChunksAreSixteenBytes : Prop :=
  ∀ (cfg : Config) (sb : List Sample) (last : Bool) (fh1 fh2 h1 h2 : Int) (f : Bool) (ls le : LoopIdx) (b : BlockIdx),
    sb.length = 28 →
      let w := (encodeBlock cfg sb last fh1 fh2 h1 h2 f ls le b).work
      (chunkBytes w).length = 16 ∧ (chunkBytes w)[0]? = some w.hdr ∧ (chunkBytes w)[1]? = some w.flg ∧
        (chunkBytes w).drop 2 = w.pay ∧ w.pay = packCodes (w.q.map codeOf) ∧
        (∀ j, j < 14 → (chunkBytes w)[2 + j]? = some (codeOf (w.q.getD (2 * j + 1) 0) ++ codeOf (w.q.getD (2 * j) 0))) ∧
        FlagLegal w.flg ∧ w.q.length = 28 ∧ w.pay.length = 14
end

