-- ==== Sys2Proof/Laws/Block.lean ====
section
/-! SUPPORT. The functions of the block encoder: their lengths and ranges, one lemma a fact. -/

namespace Sys2Proof.Machine

/-! ### The clamps -/

theorem clamp_eq_max_min {lo hi : Int} (h : lo ≤ hi) (v : Int) : clamp v lo hi = max lo (min hi v) := by
  unfold clamp
  split
  · omega
  · split <;> omega

theorem clamp_range {lo hi : Int} (h : lo ≤ hi) (v : Int) : lo ≤ clamp v lo hi ∧ clamp v lo hi ≤ hi := by
  rw [clamp_eq_max_min h]
  omega

theorem sat40_eq (v : Int) : sat 40 v = max (-2 ^ 39) (min (2 ^ 39 - 1) v) :=
  clamp_eq_max_min (by decide) v

theorem sat40_range (v : Int) : Hist40Range (sat 40 v) :=
  clamp_range (by decide) v

theorem clampSample_range (v : Sample) : ClampedRange (clampSample v) :=
  clamp_range (by decide) _

theorem clampBlock_range (sb : List Sample) : ∀ x ∈ clampBlock sb, ClampedRange x := by
  simp only [clampBlock, List.mem_map]
  rintro x ⟨v, -, rfl⟩
  exact clampSample_range v

@[simp] theorem clampBlock_length (sb : List Sample) : (clampBlock sb).length = sb.length := by
  simp [clampBlock]

theorem getD_range {c : List Int} (h : ∀ x ∈ c, ClampedRange x) (i : Nat) : ClampedRange (c.getD i 0) := by
  by_cases hi : i < c.length
  · rw [List.getD_eq_getElem _ _ hi]
    exact h _ (List.getElem_mem hi)
  · rw [List.getD_eq_default _ _ (by omega)]
    decide

/-- A value of the 40-bit range is what its register gives back. -/
theorem ofInt40_toInt {x : Int} (h : Hist40Range x) : (BitVec.ofInt 40 x).toInt = x := by
  rw [BitVec.toInt_ofInt, Int.bmod_eq_of_le] <;> simp only [Hist40Range] at h <;> omega

/-- A clamped sample is what its register gives back. -/
theorem ofInt16_toInt {x : Int} (h : ClampedRange x) : (BitVec.ofInt 16 x).toInt = x := by
  rw [BitVec.toInt_ofInt, Int.bmod_eq_of_le] <;> simp only [ClampedRange] at h <;> omega

theorem toInt40_range (x : HistWord) : Hist40Range x.toInt := by
  have h1 := BitVec.le_toInt x
  have h2 := BitVec.toInt_lt (x := x)
  simp only [Hist40Range]
  omega

/-! ### The scan -/

@[simp] theorem residuals_length (p : PredIdx) (h1 h2 : Int) (c : List Int) : (residuals p h1 h2 c).length = c.length := by
  induction c generalizing h1 h2 with
  | nil => rfl
  | cons x xs ih => simp [residuals, ih]

theorem residual_range (p : PredIdx) {h1 h2 x : Int} (hx : ClampedRange x) (hh1 : ClampedRange h1)
    (hh2 : ClampedRange h2) : (64 * x + K1N p * h1 + K2N p * h2).natAbs ≤ 7557120 := by
  simp only [ClampedRange] at *
  fin_cases p <;> simp only [K1N, K2N] <;> omega

theorem residuals_range (p : PredIdx) {c : List Int} : ∀ {h1 h2 : Int}, ClampedRange h1 → ClampedRange h2 →
    (∀ x ∈ c, ClampedRange x) → ∀ r ∈ residuals p h1 h2 c, r.natAbs ≤ 7557120 := by
  induction c with
  | nil => simp [residuals]
  | cons x xs ih =>
    intro h1 h2 hh1 hh2 hc r hr
    have hx := hc x (by simp)
    obtain rfl | hr := List.mem_cons.1 hr
    · exact residual_range p hx hh1 hh2
    · exact ih hx hh1 (fun y hy => hc y (by simp [hy])) r hr

/-- Candidate 0's residuals are the samples themselves. -/
theorem residuals_zero (h1 h2 : Int) (c : List Int) : residuals 0 h1 h2 c = c.map (64 * ·) := by
  induction c generalizing h1 h2 with
  | nil => rfl
  | cons x xs ih => simp [residuals, ih, K1N, K2N]

theorem maxAbs_le {rs : List Int} {n : Nat} (h : ∀ r ∈ rs, r.natAbs ≤ n) : maxAbs rs ≤ n := by
  induction rs with
  | nil => exact Nat.zero_le n
  | cons r rs ih =>
    simp only [maxAbs]
    exact Nat.max_le.2 ⟨h r (by simp), ih fun x hx => h x (by simp [hx])⟩

theorem le_maxAbs {rs : List Int} {r : Int} (h : r ∈ rs) : r.natAbs ≤ maxAbs rs := by
  induction rs with
  | nil => cases h
  | cons x rs ih =>
    simp only [maxAbs]
    obtain rfl | h := List.mem_cons.1 h
    · exact Nat.le_max_left ..
    · exact Nat.le_trans (ih h) (Nat.le_max_right ..)

theorem scanBlock_eq (c : List Int) (h1 h2 : Int) : scanBlock c h1 h2 =
    [residuals 0 h1 h2 c, residuals 1 h1 h2 c, residuals 2 h1 h2 c, residuals 3 h1 h2 c, residuals 4 h1 h2 c] := rfl

theorem scanBlock_getD (c : List Int) (h1 h2 : Int) (p : PredIdx) :
    (scanBlock c h1 h2).getD p.val [] = residuals p h1 h2 c := by
  fin_cases p <;> rfl

/-! ### The selection and the shift -/

/-- The first candidate is always taken (R106). -/
theorem selectFrom_none (p : PredIdx) (x : Nat) (xs : List (PredIdx × Nat)) (i : PredIdx) :
    selectFrom ((p, x) :: xs) none i = if x ≤ 448 then (0, some x) else selectFrom xs (some x) p := rfl

/-- A later candidate replaces the running minimum where it is strictly smaller (R106). -/
theorem selectFrom_some (p : PredIdx) (x v : Nat) (xs : List (PredIdx × Nat)) (i : PredIdx) :
    selectFrom ((p, x) :: xs) (some v) i =
      if min x v ≤ 448 then (0, some (min x v)) else selectFrom xs (some (min x v)) (if x < v then p else i) := by
  simp only [selectFrom, Option.getD_some, decide_eq_true_eq]
  by_cases h : x < v
  · rw [if_pos h, if_pos h, Nat.min_eq_left (Nat.le_of_lt h)]
  · rw [if_neg h, if_neg h, Nat.min_eq_right (by omega)]

/-- The running minimum of a selection never exceeds the minimum it starts from. -/
theorem selectFrom_min_le (xs : List (PredIdx × Nat)) : ∀ (m : Nat) (i : PredIdx),
    (selectFrom xs (some m) i).2.getD 0 ≤ m := by
  induction xs with
  | nil => exact fun m _ => Nat.le_refl m
  | cons x xs ih =>
    intro m i
    rw [selectFrom_some]
    split
    · exact Nat.min_le_right ..
    · exact Nat.le_trans (ih ..) (Nat.min_le_right ..)

theorem select_min_le (m : Nat) (ms : List Nat) : (select (m :: ms)).2 ≤ m := by
  simp only [select, predictors, List.zip_cons_cons, selectFrom_none]
  split
  · exact Nat.le_refl m
  · exact selectFrom_min_le ..

/-- A shift a test fires at is one of those tested. -/
theorem shiftSearch_cases (nohit minInt : Nat) (k : Nat) : ∀ mask s,
    shiftSearch nohit minInt k mask s = nohit ∨
      s ≤ shiftSearch nohit minInt k mask s ∧ shiftSearch nohit minInt k mask s < s + k := by
  induction k with
  | zero => simp [shiftSearch]
  | succ k ih =>
    intro mask s
    simp only [shiftSearch]
    split
    · right
      omega
    · rcases ih (mask >>> 1) (s + 1) with h | h
      · exact .inl h
      · right
        omega

theorem shiftOf_le_eleven (cfg : Config) (m : Nat) : shiftOf cfg m = cfg.SHIFT_NOHIT ∨ shiftOf cfg m ≤ 11 := by
  rcases shiftSearch_cases cfg.SHIFT_NOHIT (m / 64) Config.SHIFT_TESTS Config.MASK0 0 with h | ⟨-, h⟩
  · exact .inl h
  · exact .inr (Nat.lt_succ_iff.1 (Nat.lt_of_lt_of_le h (by decide)))

/-! ### The quantizer -/

@[simp] theorem quantize_length (cfg : Config) (idx : PredIdx) (shift : Nat) (rs : List Int) (p h1 h2 : Int) :
    (quantize cfg idx shift rs p h1 h2).q.length = rs.length := by
  induction rs generalizing p h1 h2 with
  | nil => rfl
  | cons r rs ih => simp [quantize, ih]

theorem quantizeValue_range (cfg : Config) (shift : Nat) (p : Int) :
    -32768 ≤ quantizeValue cfg shift p ∧ quantizeValue cfg shift p ≤ 32767 :=
  clamp_range (by decide) _

theorem quantize_range (cfg : Config) (idx : PredIdx) (shift : Nat) (rs : List Int) (p h1 h2 : Int) :
    ∀ x ∈ (quantize cfg idx shift rs p h1 h2).q, -32768 ≤ x ∧ x ≤ 32767 := by
  induction rs generalizing p h1 h2 with
  | nil => simp [quantize]
  | cons r rs ih =>
    intro x hx
    simp only [quantize, List.mem_cons] at hx
    obtain rfl | hx := hx
    · exact quantizeValue_range ..
    · exact ih _ _ _ x hx

/-- `P` and the history stay within 40 bits. -/
theorem quantize_hist_range (idx : PredIdx) (shift : Nat) (rs : List Int) : ∀ {p h1 h2 : Int}, Hist40Range p →
    Hist40Range h1 → Hist40Range h2 →
      Hist40Range (quantize Config.hw idx shift rs p h1 h2).p ∧
        Hist40Range (quantize Config.hw idx shift rs p h1 h2).hist1 ∧
          Hist40Range (quantize Config.hw idx shift rs p h1 h2).hist2 := by
  induction rs with
  | nil => exact fun hp h1 h2 => ⟨hp, h1, h2⟩
  | cons r rs ih => exact fun _ h1 _ => ih (sat40_range _) (sat40_range _) h1

/-! ### Packing and the header -/

theorem packCodes_length (cs : List Nibble) : (packCodes cs).length = cs.length / 2 := by
  induction cs using packCodes.induct with
  | case1 lo hi rest ih =>
    simp only [packCodes, List.length_cons, ih]
    omega
  | case2 x => simp [packCodes]
  | case3 => simp [packCodes]

theorem headerByte_toNat (idx : PredIdx) {shift : Nat} (h : shift ≤ 15) :
    (headerByte idx shift).toNat = 16 * idx.val + shift := by
  have hs : ∀ s : Fin 16, (headerByte idx s.val).toNat = 16 * idx.val + s.val := by
    revert idx
    decide
  exact hs ⟨shift, by omega⟩

theorem flagOf_legal (last f : Bool) (b : BlockIdx) (ls le : LoopIdx) : FlagLegal (flagOf last f b ls le).1 := by
  unfold flagOf flagLoopEnd flagLoopLastBlock flagNothing flagLoopStart flagLoopRegion FlagLegal
  repeat' split
  all_goals decide

/-- A stop is never on the last block of a packet (R145). -/
theorem flagOf_stop {last f : Bool} {b : BlockIdx} {ls le : LoopIdx} (h : (flagOf last f b ls le).2 = true) :
    last = false := by
  cases last with
  | false => rfl
  | true => cases f <;> simp [flagOf] at h

/-! ### The whole block -/

/-- From histories in range, every working register of a block is within its width (R28). -/
theorem encodeBlock_fits {sb : List Sample} (hsb : sb.length ≤ 28) (last : Bool) {fh1 fh2 h1 h2 : Int}
    (hf1 : ClampedRange fh1) (hf2 : ClampedRange fh2) (hh1 : Hist40Range h1) (hh2 : Hist40Range h2)
    (f : Bool) (ls le : LoopIdx) (b : BlockIdx) :
    WorkFits (encodeBlock Config.hw sb last fh1 fh2 h1 h2 f ls le b).work := by
  have hc := clampBlock_range sb
  have hr : ∀ row ∈ scanBlock (clampBlock sb) fh1 fh2, ∀ r ∈ row, r.natAbs ≤ 7557120 := by
    intro row hrow
    simp only [scanBlock, List.mem_map] at hrow
    obtain ⟨p, -, rfl⟩ := hrow
    exact residuals_range p hf1 hf2 hc
  have hs : ∀ m, shiftOf Config.hw m ≤ 11 := fun m => by
    rcases shiftOf_le_eleven Config.hw m with h | h
    · rw [h]
      decide
    · exact h
  have hm0 : maxAbs (residuals 0 fh1 fh2 (clampBlock sb)) ≤ 1966080 := by
    rw [residuals_zero]
    refine maxAbs_le fun r hr => ?_
    obtain ⟨x, hx, rfl⟩ := List.mem_map.1 hr
    have := hc x hx
    simp only [ClampedRange] at this
    omega
  refine ⟨hsb, hc, hr, ?_, ?_, hs _, ?_, ?_, ?_, flagOf_legal ..⟩
  · intro m hm
    simp only [encodeBlock, maxResiduals, List.mem_map] at hm
    obtain ⟨row, hrow, rfl⟩ := hm
    exact maxAbs_le (hr row hrow)
  · exact Nat.le_trans (select_min_le _ _) hm0
  · exact (quantize_hist_range _ _ _ (by decide) hh1 hh2).1
  · exact fun x hx => quantize_range _ _ _ _ _ _ _ x hx
  · have h := hs (select (maxResiduals (scanBlock (clampBlock sb) fh1 fh2))).2
    simp only [HeaderLegal, encodeBlock, headerByte_toNat _ (Nat.le_trans h (by decide))]
    omega

/-- A block of 28 samples has 14 payload bytes. -/
theorem encodeBlock_pay_length (cfg : Config) {sb : List Sample} (hsb : sb.length = 28) (last : Bool) (fh1 fh2 h1 h2 : Int)
    (f : Bool) (ls le : LoopIdx) (b : BlockIdx) :
    (encodeBlock cfg sb last fh1 fh2 h1 h2 f ls le b).work.pay.length = 14 := by
  simp only [encodeBlock, packCodes_length, List.length_map, quantize_length, scanBlock_getD, residuals_length,
    clampBlock_length, hsb]

end Sys2Proof.Machine
end

