-- ==== Sys2Proof/Laws/Encoding.lean ====
section
/-! SUPPORT. The two masked tests of the decoder (R71) as arithmetic on the word's number, and the fields of an encoded
command by bit position. -/

namespace Sys2Proof

theorem and_allOnes_shiftLeft (w : CmdWord) (n : Nat) : w &&& (BitVec.allOnes 64 <<< n) = (w >>> n) <<< n := by
  ext i hi
  simp only [BitVec.getElem_and, BitVec.getElem_shiftLeft, BitVec.getElem_ushiftRight, BitVec.getElem_allOnes]
  by_cases h : i < n
  · simp [h]
  · have : n + (i - n) = i := by omega
    simp [h, this, BitVec.getLsbD_eq_getElem hi]

/-- The test for PKT reads bits 63:57: `op` = 0001 and `rsv` = 000. -/
theorem pkt_test_iff (w : CmdWord) : w &&& pktMask = pktMatch ↔ w.toNat / 2 ^ 57 = 8 := by
  have hm : pktMask = BitVec.allOnes 64 <<< 57 := by decide
  have hw := w.isLt
  rw [hm, and_allOnes_shiftLeft, ← BitVec.toNat_inj, BitVec.toNat_shiftLeft, BitVec.toNat_ushiftRight,
    Nat.shiftRight_eq_div_pow, Nat.shiftLeft_eq]
  have h : pktMatch.toNat = 8 * 2 ^ 57 := by decide
  omega

/-- The test for END reads every bit but 56: `op` = 0010, `rsv` = 000, and bits 55:0 zero. -/
theorem end_test_iff (w : CmdWord) : w &&& endMask = endMatch ↔ w.toNat / 2 ^ 57 = 16 ∧ w.toNat % 2 ^ 56 = 0 := by
  have hw := w.isLt
  have key : (w &&& endMask).toNat = w.toNat / 2 ^ 57 * 2 ^ 57 + w.toNat % 2 ^ 56 := by
    have hsplit : w &&& endMask = ((w >>> 57) <<< 57) ||| (w &&& BitVec.ofNat 64 (2 ^ 56 - 1)) := by
      rw [← and_allOnes_shiftLeft, ← BitVec.and_or_distrib_left]
      exact congrArg (w &&& ·) (by decide)
    rw [hsplit, BitVec.toNat_or, BitVec.toNat_shiftLeft, BitVec.toNat_ushiftRight, BitVec.toNat_and, BitVec.toNat_ofNat,
      Nat.mod_eq_of_lt (by decide : 2 ^ 56 - 1 < 2 ^ 64), Nat.and_two_pow_sub_one_eq_mod, Nat.shiftRight_eq_div_pow,
      Nat.shiftLeft_eq, Nat.mod_eq_of_lt (by omega)]
    rw [← Nat.shiftLeft_eq, Nat.shiftLeft_add_eq_or_of_lt (by omega)]
  have h : endMatch.toNat = 16 * 2 ^ 57 := by decide
  rw [← BitVec.toNat_inj, key, h]
  omega

/-- `decode` by the word's number. -/
theorem decode_eq (w : CmdWord) : decode w =
    if w.toNat / 2 ^ 57 = 8 then
      some (.pkt (wordLoopFlag w) (wordNsamples w) (wordLoopEnd w) (wordLoopStart w))
    else if w.toNat / 2 ^ 57 = 16 ∧ w.toNat % 2 ^ 56 = 0 then some (.endStream (wordLoopFlag w))
    else none := by
  simp only [decode, pkt_test_iff, end_test_iff]

theorem wordNsamples_toNat (w : CmdWord) : (wordNsamples w).toNat = w.toNat / 2 ^ 32 % 2 ^ 24 := by
  simp [wordNsamples, BitVec.extractLsb'_toNat, Nat.shiftRight_eq_div_pow]

theorem wordLoopEnd_toNat (w : CmdWord) : (wordLoopEnd w).toNat = w.toNat / 2 ^ 16 % 2 ^ 16 := by
  simp [wordLoopEnd, BitVec.extractLsb'_toNat, Nat.shiftRight_eq_div_pow]

theorem wordLoopStart_toNat (w : CmdWord) : (wordLoopStart w).toNat = w.toNat % 2 ^ 16 := by
  simp [wordLoopStart, BitVec.extractLsb'_toNat]

theorem wordLoopFlag_eq (w : CmdWord) : wordLoopFlag w = decide (w.toNat / 2 ^ 56 % 2 = 1) := by
  simp [wordLoopFlag, BitVec.getLsbD, Nat.testBit_eq_decide_div_mod_eq]

/-- The number of the word of six fields. -/
theorem word_toNat (f : CmdFields) : f.word.toNat =
    f.op.toNat * 2 ^ 60 + f.rsv.toNat * 2 ^ 57 + f.loopFlag.toNat * 2 ^ 56 + f.nsamples.toNat * 2 ^ 32 +
      f.loopEnd.toNat * 2 ^ 16 + f.loopStart.toNat := by
  have h1 := f.rsv.isLt
  have h2 := f.loopFlag.isLt
  have h3 := f.nsamples.isLt
  have h4 := f.loopEnd.isLt
  have h5 := f.loopStart.isLt
  simp only [CmdFields.word, BitVec.toNat_append]
  rw [← Nat.shiftLeft_add_eq_or_of_lt h5, ← Nat.shiftLeft_add_eq_or_of_lt h4, ← Nat.shiftLeft_add_eq_or_of_lt h3,
    ← Nat.shiftLeft_add_eq_or_of_lt h2, ← Nat.shiftLeft_add_eq_or_of_lt h1]
  simp only [Nat.shiftLeft_eq]
  omega

/-- The number of a PKT's word. -/
theorem encode_pkt_toNat (f : Bool) (n : SampleCount) (le ls : LoopIdx) : (encode (.pkt f n le ls)).toNat =
    2 ^ 60 + f.toNat * 2 ^ 56 + n.toNat * 2 ^ 32 + le.toNat * 2 ^ 16 + ls.toNat := by
  rw [encode, word_toNat]
  simp [Instr.fields]

/-- The number of an END's word. -/
theorem encode_end_toNat (f : Bool) : (encode (.endStream f)).toNat = 2 ^ 61 + f.toNat * 2 ^ 56 := by
  rw [encode, word_toNat]
  simp [Instr.fields]

end Sys2Proof
end

