-- ==== Sys2Proof/Laws/PerInstr.lean ====
section
/-! SUPPORT. What holds of every command as syntax, one lemma per constructor. -/

namespace Sys2Proof.Laws.TableRow

/-- The match and the mask the opcode table gives the command's row (R70). -/
def row : Instr → CmdWord × CmdWord
  | .pkt _ _ _ _ => (pktMatch, pktMask)
  | .endStream _ => (endMatch, endMask)

/-- The command's word is one of its own row, and of no other: it meets the row's match under the row's mask, and its
fields are well formed. -/
def Statement (i : Instr) : Prop := encode i &&& (row i).2 = (row i).1 ∧ i.WellFormed

theorem pkt (f : Bool) (n : SampleCount) (le ls : LoopIdx) : Statement (.pkt f n le ls) := by
  refine ⟨(pkt_test_iff _).2 ?_, by simp [Instr.WellFormed, Instr.fields, CmdFields.wellFormed, CmdFields.opKnown,
    CmdFields.rsvZero, CmdFields.endOperandsZero]⟩
  have h2 := Bool.toNat_le f
  have h3 := n.isLt
  have h4 := le.isLt
  have h5 := ls.isLt
  rw [encode_pkt_toNat]
  omega

theorem endStream (f : Bool) : Statement (.endStream f) := by
  cases f <;> exact ⟨by decide, by decide⟩

end Sys2Proof.Laws.TableRow
end

