-- ==== Sys2Proof/Laws/State.lean ====
section
/-! SUPPORT. The registers after each named update of the state, one lemma a register, each true by definition: later
proofs cite these and unfold no record update. -/

namespace Sys2Proof.Machine

@[simp] theorem latchPkt_phase (f : Bool) (n : SampleCount) (le ls : LoopIdx) (s : State) :
    (latchPkt f n le ls s).phase = s.phase := rfl
@[simp] theorem latchPkt_running (f : Bool) (n : SampleCount) (le ls : LoopIdx) (s : State) :
    (latchPkt f n le ls s).running = .pkt := rfl
@[simp] theorem latchPkt_emitOff (f : Bool) (n : SampleCount) (le ls : LoopIdx) (s : State) :
    (latchPkt f n le ls s).emitOff = s.emitOff := rfl
@[simp] theorem latchPkt_lastHeader (f : Bool) (n : SampleCount) (le ls : LoopIdx) (s : State) :
    (latchPkt f n le ls s).lastHeader = s.lastHeader := rfl
@[simp] theorem latchPkt_fh1 (f : Bool) (n : SampleCount) (le ls : LoopIdx) (s : State) :
    (latchPkt f n le ls s).fh1 = 0 := rfl
@[simp] theorem latchPkt_fh2 (f : Bool) (n : SampleCount) (le ls : LoopIdx) (s : State) :
    (latchPkt f n le ls s).fh2 = 0 := rfl
@[simp] theorem latchPkt_hist1 (f : Bool) (n : SampleCount) (le ls : LoopIdx) (s : State) :
    (latchPkt f n le ls s).hist1 = 0 := rfl
@[simp] theorem latchPkt_hist2 (f : Bool) (n : SampleCount) (le ls : LoopIdx) (s : State) :
    (latchPkt f n le ls s).hist2 = 0 := rfl
@[simp] theorem latchPkt_loopFlag (f : Bool) (n : SampleCount) (le ls : LoopIdx) (s : State) :
    (latchPkt f n le ls s).loopFlag = f := rfl
@[simp] theorem latchPkt_loopStart (f : Bool) (n : SampleCount) (le ls : LoopIdx) (s : State) :
    (latchPkt f n le ls s).loopStart = ls := rfl
@[simp] theorem latchPkt_loopEnd (f : Bool) (n : SampleCount) (le ls : LoopIdx) (s : State) :
    (latchPkt f n le ls s).loopEnd = le := rfl
@[simp] theorem latchPkt_remain (f : Bool) (n : SampleCount) (le ls : LoopIdx) (s : State) :
    (latchPkt f n le ls s).remain = n := rfl
@[simp] theorem latchPkt_bidx (f : Bool) (n : SampleCount) (le ls : LoopIdx) (s : State) :
    (latchPkt f n le ls s).bidx = 0 := rfl
@[simp] theorem latchPkt_nbytes (f : Bool) (n : SampleCount) (le ls : LoopIdx) (s : State) :
    (latchPkt f n le ls s).nbytes = 0 := rfl
@[simp] theorem latchPkt_work (f : Bool) (n : SampleCount) (le ls : LoopIdx) (s : State) :
    (latchPkt f n le ls s).work = s.work := rfl
@[simp] theorem latchPkt_last (f : Bool) (n : SampleCount) (le ls : LoopIdx) (s : State) :
    (latchPkt f n le ls s).last = s.last := rfl
@[simp] theorem latchPkt_stop (f : Bool) (n : SampleCount) (le ls : LoopIdx) (s : State) :
    (latchPkt f n le ls s).stop = false := rfl
@[simp] theorem latchPkt_cmd (f : Bool) (n : SampleCount) (le ls : LoopIdx) (s : State) :
    (latchPkt f n le ls s).cmd = s.cmd := rfl
@[simp] theorem latchPkt_smp (f : Bool) (n : SampleCount) (le ls : LoopIdx) (s : State) :
    (latchPkt f n le ls s).smp = s.smp := rfl
@[simp] theorem latchPkt_outAccept (f : Bool) (n : SampleCount) (le ls : LoopIdx) (s : State) :
    (latchPkt f n le ls s).outAccept = s.outAccept := rfl
@[simp] theorem latchPkt_rspAccept (f : Bool) (n : SampleCount) (le ls : LoopIdx) (s : State) :
    (latchPkt f n le ls s).rspAccept = s.rspAccept := rfl
@[simp] theorem latchPkt_trace (f : Bool) (n : SampleCount) (le ls : LoopIdx) (s : State) :
    (latchPkt f n le ls s).trace = s.trace := rfl
@[simp] theorem latchPkt_resetIn (f : Bool) (n : SampleCount) (le ls : LoopIdx) (s : State) :
    (latchPkt f n le ls s).resetIn = s.resetIn := rfl

@[simp] theorem latchEnd_phase (s : State) :
    (latchEnd s).phase = s.phase := rfl
@[simp] theorem latchEnd_running (s : State) :
    (latchEnd s).running = .endStream := rfl
@[simp] theorem latchEnd_emitOff (s : State) :
    (latchEnd s).emitOff = s.emitOff := rfl
@[simp] theorem latchEnd_lastHeader (s : State) :
    (latchEnd s).lastHeader = s.lastHeader := rfl
@[simp] theorem latchEnd_fh1 (s : State) :
    (latchEnd s).fh1 = s.fh1 := rfl
@[simp] theorem latchEnd_fh2 (s : State) :
    (latchEnd s).fh2 = s.fh2 := rfl
@[simp] theorem latchEnd_hist1 (s : State) :
    (latchEnd s).hist1 = s.hist1 := rfl
@[simp] theorem latchEnd_hist2 (s : State) :
    (latchEnd s).hist2 = s.hist2 := rfl
@[simp] theorem latchEnd_loopFlag (s : State) :
    (latchEnd s).loopFlag = s.loopFlag := rfl
@[simp] theorem latchEnd_loopStart (s : State) :
    (latchEnd s).loopStart = s.loopStart := rfl
@[simp] theorem latchEnd_loopEnd (s : State) :
    (latchEnd s).loopEnd = s.loopEnd := rfl
@[simp] theorem latchEnd_remain (s : State) :
    (latchEnd s).remain = s.remain := rfl
@[simp] theorem latchEnd_bidx (s : State) :
    (latchEnd s).bidx = s.bidx := rfl
@[simp] theorem latchEnd_nbytes (s : State) :
    (latchEnd s).nbytes = 0 := rfl
@[simp] theorem latchEnd_work (s : State) :
    (latchEnd s).work = s.work := rfl
@[simp] theorem latchEnd_last (s : State) :
    (latchEnd s).last = s.last := rfl
@[simp] theorem latchEnd_stop (s : State) :
    (latchEnd s).stop = s.stop := rfl
@[simp] theorem latchEnd_cmd (s : State) :
    (latchEnd s).cmd = s.cmd := rfl
@[simp] theorem latchEnd_smp (s : State) :
    (latchEnd s).smp = s.smp := rfl
@[simp] theorem latchEnd_outAccept (s : State) :
    (latchEnd s).outAccept = s.outAccept := rfl
@[simp] theorem latchEnd_rspAccept (s : State) :
    (latchEnd s).rspAccept = s.rspAccept := rfl
@[simp] theorem latchEnd_trace (s : State) :
    (latchEnd s).trace = s.trace := rfl
@[simp] theorem latchEnd_resetIn (s : State) :
    (latchEnd s).resetIn = s.resetIn := rfl

@[simp] theorem raiseIllegalCmd_phase (s : State) :
    (raiseIllegalCmd s).phase = .respond := rfl
@[simp] theorem raiseIllegalCmd_running (s : State) :
    (raiseIllegalCmd s).running = .illegal := rfl
@[simp] theorem raiseIllegalCmd_emitOff (s : State) :
    (raiseIllegalCmd s).emitOff = s.emitOff := rfl
@[simp] theorem raiseIllegalCmd_lastHeader (s : State) :
    (raiseIllegalCmd s).lastHeader = s.lastHeader := rfl
@[simp] theorem raiseIllegalCmd_fh1 (s : State) :
    (raiseIllegalCmd s).fh1 = s.fh1 := rfl
@[simp] theorem raiseIllegalCmd_fh2 (s : State) :
    (raiseIllegalCmd s).fh2 = s.fh2 := rfl
@[simp] theorem raiseIllegalCmd_hist1 (s : State) :
    (raiseIllegalCmd s).hist1 = s.hist1 := rfl
@[simp] theorem raiseIllegalCmd_hist2 (s : State) :
    (raiseIllegalCmd s).hist2 = s.hist2 := rfl
@[simp] theorem raiseIllegalCmd_loopFlag (s : State) :
    (raiseIllegalCmd s).loopFlag = s.loopFlag := rfl
@[simp] theorem raiseIllegalCmd_loopStart (s : State) :
    (raiseIllegalCmd s).loopStart = s.loopStart := rfl
@[simp] theorem raiseIllegalCmd_loopEnd (s : State) :
    (raiseIllegalCmd s).loopEnd = s.loopEnd := rfl
@[simp] theorem raiseIllegalCmd_remain (s : State) :
    (raiseIllegalCmd s).remain = s.remain := rfl
@[simp] theorem raiseIllegalCmd_bidx (s : State) :
    (raiseIllegalCmd s).bidx = s.bidx := rfl
@[simp] theorem raiseIllegalCmd_nbytes (s : State) :
    (raiseIllegalCmd s).nbytes = s.nbytes := rfl
@[simp] theorem raiseIllegalCmd_work (s : State) :
    (raiseIllegalCmd s).work = s.work := rfl
@[simp] theorem raiseIllegalCmd_last (s : State) :
    (raiseIllegalCmd s).last = s.last := rfl
@[simp] theorem raiseIllegalCmd_stop (s : State) :
    (raiseIllegalCmd s).stop = s.stop := rfl
@[simp] theorem raiseIllegalCmd_cmd (s : State) :
    (raiseIllegalCmd s).cmd = s.cmd := rfl
@[simp] theorem raiseIllegalCmd_smp (s : State) :
    (raiseIllegalCmd s).smp = s.smp := rfl
@[simp] theorem raiseIllegalCmd_outAccept (s : State) :
    (raiseIllegalCmd s).outAccept = s.outAccept := rfl
@[simp] theorem raiseIllegalCmd_rspAccept (s : State) :
    (raiseIllegalCmd s).rspAccept = s.rspAccept := rfl
@[simp] theorem raiseIllegalCmd_trace (s : State) :
    (raiseIllegalCmd s).trace = s.trace := rfl
@[simp] theorem raiseIllegalCmd_resetIn (s : State) :
    (raiseIllegalCmd s).resetIn = s.resetIn := rfl

@[simp] theorem reinitStream_phase (s : State) :
    (reinitStream s).phase = s.phase := rfl
@[simp] theorem reinitStream_running (s : State) :
    (reinitStream s).running = s.running := rfl
@[simp] theorem reinitStream_emitOff (s : State) :
    (reinitStream s).emitOff = s.emitOff := rfl
@[simp] theorem reinitStream_lastHeader (s : State) :
    (reinitStream s).lastHeader = 0 := rfl
@[simp] theorem reinitStream_fh1 (s : State) :
    (reinitStream s).fh1 = 0 := rfl
@[simp] theorem reinitStream_fh2 (s : State) :
    (reinitStream s).fh2 = 0 := rfl
@[simp] theorem reinitStream_hist1 (s : State) :
    (reinitStream s).hist1 = 0 := rfl
@[simp] theorem reinitStream_hist2 (s : State) :
    (reinitStream s).hist2 = 0 := rfl
@[simp] theorem reinitStream_loopFlag (s : State) :
    (reinitStream s).loopFlag = false := rfl
@[simp] theorem reinitStream_loopStart (s : State) :
    (reinitStream s).loopStart = 0 := rfl
@[simp] theorem reinitStream_loopEnd (s : State) :
    (reinitStream s).loopEnd = 0 := rfl
@[simp] theorem reinitStream_remain (s : State) :
    (reinitStream s).remain = 0 := rfl
@[simp] theorem reinitStream_bidx (s : State) :
    (reinitStream s).bidx = 0 := rfl
@[simp] theorem reinitStream_nbytes (s : State) :
    (reinitStream s).nbytes = 0 := rfl
@[simp] theorem reinitStream_work (s : State) :
    (reinitStream s).work = s.work := rfl
@[simp] theorem reinitStream_last (s : State) :
    (reinitStream s).last = s.last := rfl
@[simp] theorem reinitStream_stop (s : State) :
    (reinitStream s).stop = s.stop := rfl
@[simp] theorem reinitStream_cmd (s : State) :
    (reinitStream s).cmd = s.cmd := rfl
@[simp] theorem reinitStream_smp (s : State) :
    (reinitStream s).smp = s.smp := rfl
@[simp] theorem reinitStream_outAccept (s : State) :
    (reinitStream s).outAccept = s.outAccept := rfl
@[simp] theorem reinitStream_rspAccept (s : State) :
    (reinitStream s).rspAccept = s.rspAccept := rfl
@[simp] theorem reinitStream_trace (s : State) :
    (reinitStream s).trace = s.trace := rfl
@[simp] theorem reinitStream_resetIn (s : State) :
    (reinitStream s).resetIn = s.resetIn := rfl

@[simp] theorem holdReset_phase (s : State) :
    (holdReset s).phase = .idle := rfl
@[simp] theorem holdReset_running (s : State) :
    (holdReset s).running = .nothing := rfl
@[simp] theorem holdReset_emitOff (s : State) :
    (holdReset s).emitOff = 0 := rfl
@[simp] theorem holdReset_lastHeader (s : State) :
    (holdReset s).lastHeader = 0 := rfl
@[simp] theorem holdReset_fh1 (s : State) :
    (holdReset s).fh1 = 0 := rfl
@[simp] theorem holdReset_fh2 (s : State) :
    (holdReset s).fh2 = 0 := rfl
@[simp] theorem holdReset_hist1 (s : State) :
    (holdReset s).hist1 = 0 := rfl
@[simp] theorem holdReset_hist2 (s : State) :
    (holdReset s).hist2 = 0 := rfl
@[simp] theorem holdReset_loopFlag (s : State) :
    (holdReset s).loopFlag = false := rfl
@[simp] theorem holdReset_loopStart (s : State) :
    (holdReset s).loopStart = 0 := rfl
@[simp] theorem holdReset_loopEnd (s : State) :
    (holdReset s).loopEnd = 0 := rfl
@[simp] theorem holdReset_remain (s : State) :
    (holdReset s).remain = 0 := rfl
@[simp] theorem holdReset_bidx (s : State) :
    (holdReset s).bidx = 0 := rfl
@[simp] theorem holdReset_nbytes (s : State) :
    (holdReset s).nbytes = 0 := rfl
@[simp] theorem holdReset_work (s : State) :
    (holdReset s).work = Work.cleared := rfl
@[simp] theorem holdReset_last (s : State) :
    (holdReset s).last = false := rfl
@[simp] theorem holdReset_stop (s : State) :
    (holdReset s).stop = false := rfl
@[simp] theorem holdReset_cmd (s : State) :
    (holdReset s).cmd = [] := rfl
@[simp] theorem holdReset_smp (s : State) :
    (holdReset s).smp = [] := rfl
@[simp] theorem holdReset_outAccept (s : State) :
    (holdReset s).outAccept = s.outAccept := rfl
@[simp] theorem holdReset_rspAccept (s : State) :
    (holdReset s).rspAccept = s.rspAccept := rfl
@[simp] theorem holdReset_trace (s : State) :
    (holdReset s).trace = s.trace := rfl
@[simp] theorem holdReset_resetIn (s : State) :
    (holdReset s).resetIn = true := rfl

@[simp] theorem padBlock_phase (s : State) :
    (padBlock s).phase = .encode := rfl
@[simp] theorem padBlock_running (s : State) :
    (padBlock s).running = s.running := rfl
@[simp] theorem padBlock_emitOff (s : State) :
    (padBlock s).emitOff = s.emitOff := rfl
@[simp] theorem padBlock_lastHeader (s : State) :
    (padBlock s).lastHeader = s.lastHeader := rfl
@[simp] theorem padBlock_fh1 (s : State) :
    (padBlock s).fh1 = s.fh1 := rfl
@[simp] theorem padBlock_fh2 (s : State) :
    (padBlock s).fh2 = s.fh2 := rfl
@[simp] theorem padBlock_hist1 (s : State) :
    (padBlock s).hist1 = s.hist1 := rfl
@[simp] theorem padBlock_hist2 (s : State) :
    (padBlock s).hist2 = s.hist2 := rfl
@[simp] theorem padBlock_loopFlag (s : State) :
    (padBlock s).loopFlag = s.loopFlag := rfl
@[simp] theorem padBlock_loopStart (s : State) :
    (padBlock s).loopStart = s.loopStart := rfl
@[simp] theorem padBlock_loopEnd (s : State) :
    (padBlock s).loopEnd = s.loopEnd := rfl
@[simp] theorem padBlock_remain (s : State) :
    (padBlock s).remain = s.remain - BitVec.ofNat 24 (blockTake s) := rfl
@[simp] theorem padBlock_bidx (s : State) :
    (padBlock s).bidx = s.bidx := rfl
@[simp] theorem padBlock_nbytes (s : State) :
    (padBlock s).nbytes = s.nbytes := rfl
@[simp] theorem padBlock_work (s : State) :
    (padBlock s).work = { s.work with sb := s.work.sb ++ List.replicate (28 - s.work.sb.length) 0 } := rfl
@[simp] theorem padBlock_last (s : State) :
    (padBlock s).last = decide (s.remain.toNat ≤ 28) := rfl
@[simp] theorem padBlock_stop (s : State) :
    (padBlock s).stop = s.stop := rfl
@[simp] theorem padBlock_cmd (s : State) :
    (padBlock s).cmd = s.cmd := rfl
@[simp] theorem padBlock_smp (s : State) :
    (padBlock s).smp = s.smp := rfl
@[simp] theorem padBlock_outAccept (s : State) :
    (padBlock s).outAccept = s.outAccept := rfl
@[simp] theorem padBlock_rspAccept (s : State) :
    (padBlock s).rspAccept = s.rspAccept := rfl
@[simp] theorem padBlock_trace (s : State) :
    (padBlock s).trace = s.trace := rfl
@[simp] theorem padBlock_resetIn (s : State) :
    (padBlock s).resetIn = s.resetIn := rfl

@[simp] theorem tickEncode_phase (s : State) :
    (tickEncode s).phase = .emit := rfl
@[simp] theorem tickEncode_running (s : State) :
    (tickEncode s).running = s.running := rfl
@[simp] theorem tickEncode_emitOff (s : State) :
    (tickEncode s).emitOff = 0 := rfl
@[simp] theorem tickEncode_lastHeader (s : State) :
    (tickEncode s).lastHeader = s.lastHeader := rfl
@[simp] theorem tickEncode_fh1 (s : State) :
    (tickEncode s).fh1 = BitVec.ofInt 16 (encodedBlock s).fh1 := rfl
@[simp] theorem tickEncode_fh2 (s : State) :
    (tickEncode s).fh2 = BitVec.ofInt 16 (encodedBlock s).fh2 := rfl
@[simp] theorem tickEncode_hist1 (s : State) :
    (tickEncode s).hist1 = BitVec.ofInt 40 (encodedBlock s).hist1 := rfl
@[simp] theorem tickEncode_hist2 (s : State) :
    (tickEncode s).hist2 = BitVec.ofInt 40 (encodedBlock s).hist2 := rfl
@[simp] theorem tickEncode_loopFlag (s : State) :
    (tickEncode s).loopFlag = s.loopFlag := rfl
@[simp] theorem tickEncode_loopStart (s : State) :
    (tickEncode s).loopStart = s.loopStart := rfl
@[simp] theorem tickEncode_loopEnd (s : State) :
    (tickEncode s).loopEnd = s.loopEnd := rfl
@[simp] theorem tickEncode_remain (s : State) :
    (tickEncode s).remain = s.remain := rfl
@[simp] theorem tickEncode_bidx (s : State) :
    (tickEncode s).bidx = s.bidx := rfl
@[simp] theorem tickEncode_nbytes (s : State) :
    (tickEncode s).nbytes = s.nbytes := rfl
@[simp] theorem tickEncode_work (s : State) :
    (tickEncode s).work = (encodedBlock s).work := rfl
@[simp] theorem tickEncode_last (s : State) :
    (tickEncode s).last = s.last := rfl
@[simp] theorem tickEncode_stop (s : State) :
    (tickEncode s).stop = (encodedBlock s).stop := rfl
@[simp] theorem tickEncode_cmd (s : State) :
    (tickEncode s).cmd = s.cmd := rfl
@[simp] theorem tickEncode_smp (s : State) :
    (tickEncode s).smp = s.smp := rfl
@[simp] theorem tickEncode_outAccept (s : State) :
    (tickEncode s).outAccept = s.outAccept := rfl
@[simp] theorem tickEncode_rspAccept (s : State) :
    (tickEncode s).rspAccept = s.rspAccept := rfl
@[simp] theorem tickEncode_trace (s : State) :
    (tickEncode s).trace = s.trace := rfl
@[simp] theorem tickEncode_resetIn (s : State) :
    (tickEncode s).resetIn = s.resetIn := rfl

/-! The loop tests write the phase and `SB` alone. -/

@[simp] theorem loopTest_running (s : State) : (loopTest s).running = s.running := by
  unfold loopTest; split <;> [rfl; (split <;> rfl)]
@[simp] theorem loopTest_emitOff (s : State) : (loopTest s).emitOff = s.emitOff := by
  unfold loopTest; split <;> [rfl; (split <;> rfl)]
@[simp] theorem loopTest_lastHeader (s : State) : (loopTest s).lastHeader = s.lastHeader := by
  unfold loopTest; split <;> [rfl; (split <;> rfl)]
@[simp] theorem loopTest_fh1 (s : State) : (loopTest s).fh1 = s.fh1 := by
  unfold loopTest; split <;> [rfl; (split <;> rfl)]
@[simp] theorem loopTest_fh2 (s : State) : (loopTest s).fh2 = s.fh2 := by
  unfold loopTest; split <;> [rfl; (split <;> rfl)]
@[simp] theorem loopTest_hist1 (s : State) : (loopTest s).hist1 = s.hist1 := by
  unfold loopTest; split <;> [rfl; (split <;> rfl)]
@[simp] theorem loopTest_hist2 (s : State) : (loopTest s).hist2 = s.hist2 := by
  unfold loopTest; split <;> [rfl; (split <;> rfl)]
@[simp] theorem loopTest_loopFlag (s : State) : (loopTest s).loopFlag = s.loopFlag := by
  unfold loopTest; split <;> [rfl; (split <;> rfl)]
@[simp] theorem loopTest_loopStart (s : State) : (loopTest s).loopStart = s.loopStart := by
  unfold loopTest; split <;> [rfl; (split <;> rfl)]
@[simp] theorem loopTest_loopEnd (s : State) : (loopTest s).loopEnd = s.loopEnd := by
  unfold loopTest; split <;> [rfl; (split <;> rfl)]
@[simp] theorem loopTest_remain (s : State) : (loopTest s).remain = s.remain := by
  unfold loopTest; split <;> [rfl; (split <;> rfl)]
@[simp] theorem loopTest_bidx (s : State) : (loopTest s).bidx = s.bidx := by
  unfold loopTest; split <;> [rfl; (split <;> rfl)]
@[simp] theorem loopTest_nbytes (s : State) : (loopTest s).nbytes = s.nbytes := by
  unfold loopTest; split <;> [rfl; (split <;> rfl)]
@[simp] theorem loopTest_last (s : State) : (loopTest s).last = s.last := by
  unfold loopTest; split <;> [rfl; (split <;> rfl)]
@[simp] theorem loopTest_stop (s : State) : (loopTest s).stop = s.stop := by
  unfold loopTest; split <;> [rfl; (split <;> rfl)]
@[simp] theorem loopTest_cmd (s : State) : (loopTest s).cmd = s.cmd := by
  unfold loopTest; split <;> [rfl; (split <;> rfl)]
@[simp] theorem loopTest_smp (s : State) : (loopTest s).smp = s.smp := by
  unfold loopTest; split <;> [rfl; (split <;> rfl)]
@[simp] theorem loopTest_outAccept (s : State) : (loopTest s).outAccept = s.outAccept := by
  unfold loopTest; split <;> [rfl; (split <;> rfl)]
@[simp] theorem loopTest_rspAccept (s : State) : (loopTest s).rspAccept = s.rspAccept := by
  unfold loopTest; split <;> [rfl; (split <;> rfl)]
@[simp] theorem loopTest_trace (s : State) : (loopTest s).trace = s.trace := by
  unfold loopTest; split <;> [rfl; (split <;> rfl)]
@[simp] theorem loopTest_resetIn (s : State) : (loopTest s).resetIn = s.resetIn := by
  unfold loopTest; split <;> [rfl; (split <;> rfl)]

/-! The end of a chunk writes the phase, `SB`, the counters and LAST_HEADER alone. -/

@[simp] theorem finishChunk_running (s : State) : (finishChunk s).running = s.running := by
  unfold finishChunk; split <;> simp
@[simp] theorem finishChunk_emitOff (s : State) : (finishChunk s).emitOff = s.emitOff := by
  unfold finishChunk; split <;> simp
@[simp] theorem finishChunk_fh1 (s : State) : (finishChunk s).fh1 = s.fh1 := by
  unfold finishChunk; split <;> simp
@[simp] theorem finishChunk_fh2 (s : State) : (finishChunk s).fh2 = s.fh2 := by
  unfold finishChunk; split <;> simp
@[simp] theorem finishChunk_hist1 (s : State) : (finishChunk s).hist1 = s.hist1 := by
  unfold finishChunk; split <;> simp
@[simp] theorem finishChunk_hist2 (s : State) : (finishChunk s).hist2 = s.hist2 := by
  unfold finishChunk; split <;> simp
@[simp] theorem finishChunk_loopFlag (s : State) : (finishChunk s).loopFlag = s.loopFlag := by
  unfold finishChunk; split <;> simp
@[simp] theorem finishChunk_loopStart (s : State) : (finishChunk s).loopStart = s.loopStart := by
  unfold finishChunk; split <;> simp
@[simp] theorem finishChunk_loopEnd (s : State) : (finishChunk s).loopEnd = s.loopEnd := by
  unfold finishChunk; split <;> simp
@[simp] theorem finishChunk_remain (s : State) : (finishChunk s).remain = s.remain := by
  unfold finishChunk; split <;> simp
@[simp] theorem finishChunk_last (s : State) : (finishChunk s).last = s.last := by
  unfold finishChunk; split <;> simp
@[simp] theorem finishChunk_stop (s : State) : (finishChunk s).stop = s.stop := by
  unfold finishChunk; split <;> simp
@[simp] theorem finishChunk_cmd (s : State) : (finishChunk s).cmd = s.cmd := by
  unfold finishChunk; split <;> simp
@[simp] theorem finishChunk_smp (s : State) : (finishChunk s).smp = s.smp := by
  unfold finishChunk; split <;> simp
@[simp] theorem finishChunk_outAccept (s : State) : (finishChunk s).outAccept = s.outAccept := by
  unfold finishChunk; split <;> simp
@[simp] theorem finishChunk_rspAccept (s : State) : (finishChunk s).rspAccept = s.rspAccept := by
  unfold finishChunk; split <;> simp
@[simp] theorem finishChunk_trace (s : State) : (finishChunk s).trace = s.trace := by
  unfold finishChunk; split <;> simp
@[simp] theorem finishChunk_resetIn (s : State) : (finishChunk s).resetIn = s.resetIn := by
  unfold finishChunk; split <;> simp

/-! The end of a command writes the sequencer and, for END, the stream state. -/

@[simp] theorem finishCommand_phase (s : State) : (finishCommand s).phase = .idle := by
  unfold finishCommand; split <;> rfl
@[simp] theorem finishCommand_running (s : State) : (finishCommand s).running = .nothing := by
  unfold finishCommand; split <;> rfl
@[simp] theorem finishCommand_emitOff (s : State) : (finishCommand s).emitOff = s.emitOff := by
  unfold finishCommand; split <;> rfl
@[simp] theorem finishCommand_work (s : State) : (finishCommand s).work = s.work := by
  unfold finishCommand; split <;> rfl
@[simp] theorem finishCommand_last (s : State) : (finishCommand s).last = s.last := by
  unfold finishCommand; split <;> rfl
@[simp] theorem finishCommand_stop (s : State) : (finishCommand s).stop = s.stop := by
  unfold finishCommand; split <;> rfl
@[simp] theorem finishCommand_cmd (s : State) : (finishCommand s).cmd = s.cmd := by
  unfold finishCommand; split <;> rfl
@[simp] theorem finishCommand_smp (s : State) : (finishCommand s).smp = s.smp := by
  unfold finishCommand; split <;> rfl
@[simp] theorem finishCommand_outAccept (s : State) : (finishCommand s).outAccept = s.outAccept := by
  unfold finishCommand; split <;> rfl
@[simp] theorem finishCommand_rspAccept (s : State) : (finishCommand s).rspAccept = s.rspAccept := by
  unfold finishCommand; split <;> rfl
@[simp] theorem finishCommand_trace (s : State) : (finishCommand s).trace = s.trace := by
  unfold finishCommand; split <;> rfl
@[simp] theorem finishCommand_resetIn (s : State) : (finishCommand s).resetIn = s.resetIn := by
  unfold finishCommand; split <;> rfl
theorem finishCommand_of_end {s : State} (h : s.running = .endStream) :
    finishCommand s = reinitStream { s with phase := .idle, running := .nothing } := by simp [finishCommand, h]
theorem finishCommand_of_ne_end {s : State} (h : s.running ≠ .endStream) :
    finishCommand s = { s with phase := .idle, running := .nothing } := by
  cases hr : s.running <;> simp_all [finishCommand]

theorem reset_eq_cleared : State.reset =
    { phase := .idle, running := .nothing, emitOff := 0, lastHeader := 0, fh1 := 0, fh2 := 0, hist1 := 0, hist2 := 0,
      loopFlag := false, loopStart := 0, loopEnd := 0, remain := 0, bidx := 0, nbytes := 0, work := Work.cleared,
      last := false, stop := false, cmd := [], smp := [], outAccept := .always, rspAccept := .always, trace := [],
      resetIn := false } := rfl

end Sys2Proof.Machine
end

