-- ==== Sys2Proof/Laws/Sequencer.lean ====
section
/-! SUPPORT. What the sequencer can do, said once: the moves `tick` makes, that each leaves fewer of them, and what
`runToWait` therefore does. Later proofs cite these and do not unfold `tick`. -/

namespace Sys2Proof.Machine

/-! ### The handshakes -/

@[simp] theorem take_always : Accept.take .always = some .always := rfl
@[simp] theorem take_upTo_zero : Accept.take (.upTo 0) = none := rfl
@[simp] theorem take_upTo_succ (n : Nat) : Accept.take (.upTo (n + 1)) = some (.upTo n) := rfl

theorem take_eq_none_iff (a : Accept) : a.take = none ↔ a = .upTo 0 := by
  cases a with
  | always => simp
  | upTo n => cases n <;> simp

theorem popSample_eq_some_iff (s t : State) (v : Sample) :
    popSample s = some (v, t) ↔
      ∃ rest, s.smp = v :: rest ∧ t = { s with smp := rest, trace := s.trace ++ [.sample v] } := by
  unfold popSample
  cases h : s.smp with
  | nil => simp
  | cons u rest =>
    constructor
    · rintro ⟨⟩
      exact ⟨rest, rfl, rfl⟩
    · rintro ⟨rest', hs, ht⟩
      obtain ⟨rfl, rfl⟩ := List.cons.inj hs
      rw [ht]

theorem popSample_eq_none_iff (s : State) : popSample s = none ↔ s.smp = [] := by
  unfold popSample
  cases s.smp <;> simp

theorem popCmd_eq_none_iff (s : State) : popCmd s = none ↔ s.cmd = [] := by
  unfold popCmd
  cases s.cmd <;> simp

theorem popCmd_cons {s : State} {w : CmdWord} {rest : List CmdWord} (h : s.cmd = w :: rest) :
    popCmd s = some (w, { s with cmd := rest, trace := s.trace ++ [.cmd w] }) := by
  simp [popCmd, h]

/-! ### The moves -/

/-- The moves of the sequencer, one constructor each: what `tick` can answer, and when. -/
inductive Move (s : State) : State → Prop
  /-- FILL with no sample left in the packet: the response. -/
  | fillNone (hp : s.phase = .fill) (hr : s.remain = 0#24) : Move s { s with phase := .respond }
  /-- FILL takes a sample. -/
  | fillTake (hp : s.phase = .fill) (hr : s.remain ≠ 0#24) (hl : s.work.sb.length < blockTake s) (v : Sample)
      (rest : List Sample) (hs : s.smp = v :: rest) :
      Move s
        { s with smp := rest, trace := s.trace ++ [.sample v], work := { s.work with sb := s.work.sb ++ [v] } }
  /-- FILL pads the block. -/
  | fillPad (hp : s.phase = .fill) (hr : s.remain ≠ 0#24) (hl : ¬ s.work.sb.length < blockTake s) : Move s (padBlock s)
  /-- ENCODE. -/
  | encode (hp : s.phase = .encode) : Move s (tickEncode s)
  /-- EMIT pushes a byte that is not the chunk's last. -/
  | emitByte (hp : s.phase = .emit) (ho : s.emitOff + 1 < 16) (a : Accept) (ha : s.outAccept.take = some a) :
      Move s
        { s with
          outAccept := a, trace := s.trace ++ [.byte ((emitBytes s).getD s.emitOff 0)], emitOff := s.emitOff + 1 }
  /-- EMIT pushes the chunk's last byte. -/
  | emitLast (hp : s.phase = .emit) (ho : ¬ s.emitOff + 1 < 16) (a : Accept) (ha : s.outAccept.take = some a) :
      Move s
        (finishChunk
          { s with outAccept := a, trace := s.trace ++ [.byte ((emitBytes s).getD s.emitOff 0)], emitOff := 0 })
  /-- DRAIN with no sample left: the response. -/
  | drainNone (hp : s.phase = .drain) (hr : s.remain = 0#24) : Move s { s with phase := .respond }
  /-- DRAIN takes and discards a sample. -/
  | drainTake (hp : s.phase = .drain) (hr : s.remain ≠ 0#24) (v : Sample) (rest : List Sample) (hs : s.smp = v :: rest) :
      Move s { s with smp := rest, trace := s.trace ++ [.sample v], remain := s.remain - 1 }
  /-- RESPOND pushes the response word. -/
  | respond (hp : s.phase = .respond) (a : Accept) (ha : s.rspAccept.take = some a) :
      Move s (finishCommand { s with rspAccept := a, trace := s.trace ++ [.rsp (responseWord s)] })

theorem move_of_tick {s t : State} (h : tick s = .next t) : Move s t := by
  unfold tick at h
  split at h <;> rename_i hp
  · cases h
  · unfold tickFill at h
    split at h
    · rename_i hr
      cases h
      simpa [loopTest, hr] using Move.fillNone hp hr
    · rename_i hr
      split at h
      · rename_i hl
        split at h
        · cases h
        · rename_i v u hpop
          obtain ⟨rest, hs, rfl⟩ := (popSample_eq_some_iff ..).1 hpop
          cases h
          exact .fillTake hp hr hl v rest hs
      · rename_i hl
        cases h
        exact .fillPad hp hr hl
  · cases h
    exact .encode hp
  · unfold tickEmit pushByte at h
    cases ha : s.outAccept.take with
    | none => simp [ha] at h
    | some a =>
      simp only [ha] at h
      split at h
      · rename_i ho
        cases h
        exact .emitByte hp ho a ha
      · rename_i ho
        cases h
        exact .emitLast hp ho a ha
  · unfold tickDrain at h
    split at h
    · rename_i hr
      cases h
      exact .drainNone hp hr
    · rename_i hr
      split at h
      · cases h
      · rename_i v u hpop
        obtain ⟨rest, hs, rfl⟩ := (popSample_eq_some_iff ..).1 hpop
        cases h
        exact .drainTake hp hr v rest hs
  · unfold tickRespond pushRsp at h
    cases ha : s.rspAccept.take with
    | none => simp [ha] at h
    | some a =>
      simp only [ha] at h
      cases h
      exact .respond hp a ha

theorem tick_of_move {s t : State} (h : Move s t) : tick s = .next t := by
  cases h with
  | fillNone hp hr => simp [tick, hp, tickFill, hr, loopTest]
  | fillTake hp hr hl v rest hs => simp [tick, hp, tickFill, hr, hl, popSample, hs]
  | fillPad hp hr hl => simp [tick, hp, tickFill, hr, hl]
  | encode hp => simp [tick, hp]
  | emitByte hp ho a ha =>
    have ho' : s.emitOff + 1 < Config.CHUNK_BYTES := ho
    simp [tick, hp, tickEmit, pushByte, ha, ho']
  | emitLast hp ho a ha =>
    have ho' : ¬ s.emitOff + 1 < Config.CHUNK_BYTES := ho
    simp only [tick, hp, tickEmit, pushByte, ha, if_neg ho']
  | drainNone hp hr => simp [tick, hp, tickDrain, hr]
  | drainTake hp hr v rest hs => simp [tick, hp, tickDrain, hr, popSample, hs]
  | respond hp a ha => simp [tick, hp, tickRespond, pushRsp, ha]

/-- `tick` answers a next state exactly along the moves. -/
theorem tick_eq_next_iff (s t : State) : tick s = .next t ↔ Move s t :=
  ⟨move_of_tick, tick_of_move⟩

/-- `tick` stops exactly where the core waits for the host, and for the reason of the wait. -/
theorem tick_eq_fault_iff (s : State) (f : Fault) :
    tick s = .fault f ↔ s.Waits f ∨ s.phase = .idle ∧ f = .waitCmd := by
  unfold tick
  cases hp : s.phase with
  | idle => cases f <;> simp [State.Waits, hp]
  | encode => cases f <;> simp [State.Waits, hp]
  | fill =>
    by_cases hr : s.remain = 0#24
    · cases f <;> simp [tickFill, hr, State.Waits, hp]
    · by_cases hl : s.work.sb.length < blockTake s
      · have hl' : s.work.sb.length < min s.remain.toNat 28 := hl
        cases hs : s.smp <;> cases f <;> simp_all [tickFill, State.Waits, popSample]
      · have hl' : ¬ s.work.sb.length < min s.remain.toNat 28 := hl
        cases f <;> simp [tickFill, hr, hl, hl', State.Waits, hp, -lt_inf_iff]
  | emit =>
    have := take_eq_none_iff s.outAccept
    cases ha : s.outAccept.take with
    | none => cases f <;> simp_all [tickEmit, pushByte, State.Waits]
    | some a => cases f <;> simp_all [tickEmit, pushByte, State.Waits] <;> split <;> simp
  | drain =>
    by_cases hr : s.remain = 0#24
    · cases f <;> simp [tickDrain, hr, State.Waits, hp]
    · cases hs : s.smp <;> cases f <;> simp_all [tickDrain, State.Waits, popSample]
  | respond =>
    have := take_eq_none_iff s.rspAccept
    cases ha : s.rspAccept.take with
    | none => cases f <;> simp_all [tickRespond, pushRsp, State.Waits]
    | some a => cases f <;> simp_all [tickRespond, pushRsp, State.Waits]

theorem tick_ne_refused (s : State) (r : Refusal) : tick s ≠ .refused r := by
  unfold tick tickFill tickEmit tickDrain tickRespond
  repeat' split
  all_goals simp

/-! ### The bound on the moves -/

theorem blockTake_pos {s : State} (h : s.remain ≠ 0#24) : 0 < blockTake s := by
  have : s.remain.toNat ≠ 0 := fun h0 => h (BitVec.eq_of_toNat_eq (by simpa using h0))
  simp only [blockTake, Config.BLOCK_SAMPLES]
  omega

theorem ticksLeft_idle {s : State} (h : s.phase = .idle) : ticksLeft s = 0 := by
  simp only [ticksLeft, h]

/-- What is left of the packet once the block has taken its samples. -/
theorem padBlock_remain_toNat (s : State) : (padBlock s).remain.toNat = s.remain.toNat - blockTake s := by
  have h1 : blockTake s ≤ s.remain.toNat := Nat.min_le_left ..
  have h2 := s.remain.isLt
  have h3 : (BitVec.ofNat 24 (blockTake s)).toNat = blockTake s := by
    rw [BitVec.toNat_ofNat]
    omega
  rw [padBlock_remain, BitVec.toNat_sub_of_le (by rw [BitVec.le_def, h3]; exact h1), h3]

theorem sub_one_toNat {n : SampleCount} (h : n ≠ 0) : (n - 1).toNat = n.toNat - 1 := by
  have : n.toNat ≠ 0 := fun h0 => h (BitVec.eq_of_toNat_eq (by simpa using h0))
  rw [BitVec.toNat_sub_of_le (by rw [BitVec.le_def]; simp; omega)]
  simp

/-- The loop tests lead to FILL, to DRAIN or to RESPOND. -/
theorem loopTest_cases (s : State) :
    (s.remain = 0#24 ∧ loopTest s = { s with phase := .respond }) ∨
    (s.remain ≠ 0#24 ∧ s.stop = true ∧ loopTest s = { s with phase := .drain }) ∨
    (s.remain ≠ 0#24 ∧ s.stop = false ∧ loopTest s = { s with phase := .fill, work := { s.work with sb := [] } }) := by
  unfold loopTest
  by_cases hr : s.remain = 0#24
  · simp [hr]
  · cases hs : s.stop <;> simp [hr]

theorem loopTest_ticksLeft_le (s : State) : ticksLeft (loopTest s) ≤ 48 * s.remain.toNat + 60 := by
  obtain ⟨h, e⟩ | ⟨h, -, e⟩ | ⟨h, -, e⟩ := loopTest_cases s <;> rw [e] <;> simp only [ticksLeft, List.length_nil] <;> omega

/-- Every move makes the bound on the moves left smaller. -/
theorem move_decreases {s t : State} (h : Move s t) : ticksLeft t < ticksLeft s := by
  cases h with
  | fillNone hp hr => simp only [ticksLeft, hp]; omega
  | fillTake hp hr hl v rest hs =>
    have : blockTake s ≤ 28 := Nat.min_le_right ..
    simp only [ticksLeft, hp, List.length_append, List.length_singleton]
    omega
  | fillPad hp hr hl =>
    have h1 := padBlock_remain_toNat s
    have h2 := blockTake_pos hr
    have h3 : blockTake s ≤ s.remain.toNat := Nat.min_le_left ..
    simp only [ticksLeft, hp, padBlock_phase, h1]
    omega
  | encode hp => simp only [ticksLeft, hp, tickEncode_phase, tickEncode_remain, tickEncode_emitOff]; omega
  | emitByte hp ho a ha => simp only [ticksLeft, hp]; omega
  | emitLast hp ho a ha =>
    simp only [finishChunk]
    split
    · refine Nat.lt_of_le_of_lt (loopTest_ticksLeft_le _) ?_
      simp only [ticksLeft, hp]
      omega
    all_goals simp only [ticksLeft, hp]; omega
  | drainNone hp hr => simp only [ticksLeft, hp]; omega
  | drainTake hp hr v rest hs =>
    have h0 : s.remain.toNat ≠ 0 := fun h0 => hr (BitVec.eq_of_toNat_eq (by simpa using h0))
    have := sub_one_toNat hr
    simp only [ticksLeft, hp]
    omega
  | respond hp a ha =>
    rw [ticksLeft_idle (finishCommand_phase _)]
    simp only [ticksLeft, hp]
    omega

/-! ### Running until the core waits -/

theorem runOn_succ_of_move {s t : State} (h : Move s t) (k : Nat) : runOn (k + 1) s = runOn k t := by
  simp [runOn, tick_of_move h]

theorem runOn_of_fault {s : State} {f : Fault} (h : tick s = .fault f) (k : Nat) : runOn k s = s := by
  cases k <;> simp [runOn, h]

/-- Any two numbers of moves that are at least the bound lead to the same state. -/
theorem runOn_stable (k : Nat) : ∀ (j : Nat) (s : State), ticksLeft s ≤ k → ticksLeft s ≤ j → runOn k s = runOn j s := by
  induction k with
  | zero =>
    intro j s hk hj
    cases ht : tick s with
    | next t => exact absurd (move_decreases (move_of_tick ht)) (by omega)
    | fault f => rw [runOn_of_fault ht, runOn_of_fault ht]
    | refused r => exact absurd ht (tick_ne_refused s r)
  | succ k ih =>
    intro j s hk hj
    cases ht : tick s with
    | next t =>
      have hm := move_of_tick ht
      have hd := move_decreases hm
      obtain ⟨j, rfl⟩ : ∃ i, j = i + 1 := ⟨j - 1, by omega⟩
      rw [runOn_succ_of_move hm, runOn_succ_of_move hm]
      exact ih j t (by omega) (by omega)
    | fault f => rw [runOn_of_fault ht, runOn_of_fault ht]
    | refused r => exact absurd ht (tick_ne_refused s r)

/-- A move may be made first: what it leads to is run to the same end. -/
theorem runToWait_of_move {s t : State} (h : Move s t) : runToWait s = runToWait t := by
  have hd := move_decreases h
  obtain ⟨k, hk⟩ : ∃ k, ticksLeft s = k + 1 := ⟨ticksLeft s - 1, by omega⟩
  rw [runToWait, hk, runOn_succ_of_move h]
  exact runOn_stable k _ t (by omega) (Nat.le_refl _)

/-- Where the core waits, running changes nothing. -/
theorem runToWait_of_fault {s : State} {f : Fault} (h : tick s = .fault f) : runToWait s = s :=
  runOn_of_fault h _

/-- An induction over the moves of a run: what holds where the core waits, and holds of a state whenever it holds of what
a move leads to, holds of every state. -/
theorem run_induction {P : State → Prop} (stop : ∀ s f, tick s = .fault f → P s)
    (move : ∀ s t, Move s t → P t → P s) (s : State) : P s := by
  suffices h : ∀ k s, ticksLeft s ≤ k → P s from h _ s (Nat.le_refl _)
  intro k
  induction k with
  | zero =>
    intro s hk
    cases ht : tick s with
    | next t => exact absurd (move_decreases (move_of_tick ht)) (by omega)
    | fault f => exact stop s f ht
    | refused r => exact absurd ht (tick_ne_refused s r)
  | succ k ih =>
    intro s hk
    cases ht : tick s with
    | next t =>
      have hm := move_of_tick ht
      exact move s t hm (ih t (Nat.lt_succ_iff.1 (Nat.lt_of_lt_of_le (move_decreases hm) hk)))
    | fault f => exact stop s f ht
    | refused r => exact absurd ht (tick_ne_refused s r)

/-- A run ends where the core waits. -/
theorem runToWait_stops (s : State) : ∃ f, tick (runToWait s) = .fault f := by
  induction s using run_induction with
  | stop s f h => exact ⟨f, by rwa [runToWait_of_fault h]⟩
  | move s t h ih => rwa [runToWait_of_move h]

/-- What every move keeps, a run keeps. -/
theorem runToWait_keeps {P : State → Prop} (h : ∀ s t, Move s t → P s → P t) {s : State} (hs : P s) :
    P (runToWait s) := by
  induction s using run_induction with
  | stop s f hf => rwa [runToWait_of_fault hf]
  | move s t hm ih =>
    rw [runToWait_of_move hm]
    exact ih (h s t hm hs)

end Sys2Proof.Machine
end

