-- ==== Sys2Proof/Laws/Step.lean ====
section
/-! SUPPORT. What a step can do, said once: hold the core in reset, start the command of a word and run it, or run the
command in progress. Every invariant follows from what these three keep. -/

namespace Sys2Proof.Machine

/-! ### The transfers, seen through the views of the trace -/

theorem out_append {s t : State} {ts : List Transfer} (h : t.trace = s.trace ++ ts) : t.out = s.out ++ bytesOf ts := by
  simp only [State.out, h, List.filterMap_append]
  rfl

@[simp] theorem bytesOf_nil : bytesOf [] = [] := rfl
@[simp] theorem bytesOf_append (ts us : List Transfer) : bytesOf (ts ++ us) = bytesOf ts ++ bytesOf us := by
  simp [bytesOf]
@[simp] theorem bytesOf_byte (b : Byte) (ts : List Transfer) : bytesOf (.byte b :: ts) = b :: bytesOf ts := rfl
@[simp] theorem bytesOf_sample (v : Sample) (ts : List Transfer) : bytesOf (.sample v :: ts) = bytesOf ts := rfl
@[simp] theorem bytesOf_cmd (w : CmdWord) (ts : List Transfer) : bytesOf (.cmd w :: ts) = bytesOf ts := rfl
@[simp] theorem bytesOf_rsp (w : RspWord) (ts : List Transfer) : bytesOf (.rsp w :: ts) = bytesOf ts := rfl

@[simp] theorem bytesOf_map_byte (bs : List Byte) : bytesOf (bs.map .byte) = bs := by
  induction bs with
  | nil => rfl
  | cons b bs ih => simp [ih]

@[simp] theorem bytesOf_map_sample (vs : List Sample) : bytesOf (vs.map .sample) = [] := by
  induction vs with
  | nil => rfl
  | cons v vs ih => simp [ih]

@[simp] theorem rspsOf_nil : rspsOf [] = [] := rfl
@[simp] theorem rspsOf_append (ts us : List Transfer) : rspsOf (ts ++ us) = rspsOf ts ++ rspsOf us := by
  simp [rspsOf]
@[simp] theorem rspsOf_byte (b : Byte) (ts : List Transfer) : rspsOf (.byte b :: ts) = rspsOf ts := rfl
@[simp] theorem rspsOf_sample (v : Sample) (ts : List Transfer) : rspsOf (.sample v :: ts) = rspsOf ts := rfl
@[simp] theorem rspsOf_cmd (w : CmdWord) (ts : List Transfer) : rspsOf (.cmd w :: ts) = rspsOf ts := rfl
@[simp] theorem rspsOf_rsp (w : RspWord) (ts : List Transfer) : rspsOf (.rsp w :: ts) = w :: rspsOf ts := rfl

@[simp] theorem samplesOf_nil : samplesOf [] = [] := rfl
@[simp] theorem samplesOf_append (ts us : List Transfer) : samplesOf (ts ++ us) = samplesOf ts ++ samplesOf us := by
  simp [samplesOf]
@[simp] theorem samplesOf_byte (b : Byte) (ts : List Transfer) : samplesOf (.byte b :: ts) = samplesOf ts := rfl
@[simp] theorem samplesOf_sample (v : Sample) (ts : List Transfer) : samplesOf (.sample v :: ts) = v :: samplesOf ts := rfl
@[simp] theorem samplesOf_cmd (w : CmdWord) (ts : List Transfer) : samplesOf (.cmd w :: ts) = samplesOf ts := rfl
@[simp] theorem samplesOf_rsp (w : RspWord) (ts : List Transfer) : samplesOf (.rsp w :: ts) = samplesOf ts := rfl

theorem rsp_append {s t : State} {ts : List Transfer} (h : t.trace = s.trace ++ ts) : t.rsp = s.rsp ++ rspsOf ts := by
  simp only [State.rsp, h, List.filterMap_append]
  rfl

theorem taken_append {s t : State} {ts : List Transfer} (h : t.trace = s.trace ++ ts) :
    t.taken = s.taken ++ samplesOf ts := by
  simp only [State.taken, h, List.filterMap_append]
  rfl

/-! ### What the host still accepts -/

theorem AcceptsFewer.zero (a : Accept) : AcceptsFewer a 0 a :=
  ⟨id, fun n h => ⟨Nat.zero_le n, by rw [h, Nat.sub_zero]⟩⟩

theorem AcceptsFewer.take {a b c : Accept} {k : Nat} (h : AcceptsFewer a k b) (hc : b.take = some c) :
    AcceptsFewer a (k + 1) c := by
  refine ⟨fun ha => ?_, fun n hn => ?_⟩
  · rw [h.1 ha] at hc
    exact (Option.some.inj hc).symm
  · obtain ⟨hk, hb⟩ := h.2 n hn
    obtain ⟨m, hm⟩ : ∃ m, n - k = m + 1 := by
      cases hm : n - k with
      | zero => rw [hb, hm] at hc; cases hc
      | succ m => exact ⟨m, rfl⟩
    rw [hb, hm] at hc
    obtain rfl := Option.some.inj hc
    exact ⟨by omega, by rw [show n - (k + 1) = m by omega]⟩

/-! ### Driving the reset input -/

theorem releaseReset_of_asserted {s : State} (h : s.resetIn = true) :
    releaseReset s = { holdReset s with resetIn := false } := by
  simp [releaseReset, h]

theorem releaseReset_of_released {s : State} (h : s.resetIn = false) : releaseReset s = s := by
  simp [releaseReset, h]

/-! ### The start of a command -/

/-- The state with the operands of a decoded word latched, or with an illegal word raised. -/
def startOf : Option Instr → State → State
  | some (.pkt f n le ls), s => startPkt f n le ls s
  | some (.endStream f), s => startEnd f s
  | none, s => raiseIllegalCmd s

/-- The state with the first word on CMD taken. -/
abbrev takeCmd (s : State) (w : CmdWord) (rest : List CmdWord) : State :=
  { s with cmd := rest, trace := s.trace ++ [.cmd w] }

theorem exec_eq (i : Instr) (s : State) : exec i s = .next (runToWait (startOf (some i) s)) := by
  cases i <;> rfl

/-- A started command is never in IDLE. -/
theorem startOf_phase_ne_idle (d : Option Instr) (s : State) : (startOf d s).phase ≠ .idle := by
  rcases d with _ | ⟨f, n, le, ls⟩ | ⟨f⟩
  · simp [startOf]
  · simp only [startOf, startPkt]
    obtain ⟨-, e⟩ | ⟨-, -, e⟩ | ⟨-, -, e⟩ := loopTest_cases (latchPkt f n le ls s) <;> simp [e]
  · cases f <;> simp [startOf, startEnd]

/-- Starting a command transfers nothing. -/
theorem startOf_channels (d : Option Instr) (s : State) :
    (startOf d s).cmd = s.cmd ∧ (startOf d s).smp = s.smp ∧ (startOf d s).trace = s.trace ∧
      (startOf d s).outAccept = s.outAccept ∧ (startOf d s).rspAccept = s.rspAccept ∧
      (startOf d s).resetIn = s.resetIn := by
  rcases d with _ | ⟨f, n, le, ls⟩ | ⟨f⟩
  · simp [startOf]
  · simp [startOf, startPkt]
  · cases f <;> simp [startOf, startEnd]

/-! ### The step -/

theorem step_of_reset {s : State} (h : s.resetIn = true) : step s = .next (holdReset s) := by
  simp [step, h]

theorem step_of_cmd {s : State} {w : CmdWord} {rest : List CmdWord} (hr : s.resetIn = false) (hp : s.phase = .idle)
    (hc : s.cmd = w :: rest) : step s = .next (runToWait (startOf (decode w) (takeCmd s w rest))) := by
  unfold step
  rw [if_neg (by simp [hr]), if_pos hp, popCmd_cons hc]
  dsimp only
  cases decode w with
  | none => rfl
  | some i => exact exec_eq i _

theorem step_of_no_cmd {s : State} (hr : s.resetIn = false) (hp : s.phase = .idle) (hc : s.cmd = []) :
    step s = .fault .waitCmd := by
  simp [step, hr, hp, popCmd, hc]

theorem step_of_move {s t : State} (hr : s.resetIn = false) (hp : s.phase ≠ .idle) (h : Move s t) :
    step s = .next (runToWait s) := by
  simp [step, hr, hp, tick_of_move h, runToWait_of_move h]

theorem step_of_fault {s : State} {f : Fault} (hr : s.resetIn = false) (hp : s.phase ≠ .idle)
    (h : tick s = .fault f) : step s = .fault f := by
  simp [step, hr, hp, h]

/-- Everything a step that answers a next state can have done. -/
theorem step_cases {s t : State} (h : step s = .next t) :
    (s.resetIn = true ∧ t = holdReset s) ∨
    (s.resetIn = false ∧ s.phase = .idle ∧ ∃ w rest, s.cmd = w :: rest ∧
      t = runToWait (startOf (decode w) (takeCmd s w rest))) ∨
    (s.resetIn = false ∧ s.phase ≠ .idle ∧ (∃ u, Move s u) ∧ t = runToWait s) := by
  cases hr : s.resetIn with
  | true =>
    rw [step_of_reset hr] at h
    cases h
    exact .inl ⟨rfl, rfl⟩
  | false =>
    by_cases hp : s.phase = .idle
    · cases hc : s.cmd with
      | nil => simp [step_of_no_cmd hr hp hc] at h
      | cons w rest =>
        rw [step_of_cmd hr hp hc] at h
        cases h
        exact .inr (.inl ⟨rfl, hp, w, rest, rfl, rfl⟩)
    · cases ht : tick s with
      | next u =>
        have hm := move_of_tick ht
        rw [step_of_move hr hp hm] at h
        cases h
        exact .inr (.inr ⟨rfl, hp, ⟨u, hm⟩, rfl⟩)
      | fault f => simp [step_of_fault hr hp ht] at h
      | refused r => exact absurd ht (tick_ne_refused s r)

/-- What reset, the start of a command and every move keep, every step keeps. -/
theorem step_keeps {P : State → Prop} (reset : ∀ s, P s → P (holdReset s))
    (start : ∀ s w rest, P s → s.phase = .idle → s.cmd = w :: rest → P (startOf (decode w) (takeCmd s w rest)))
    (move : ∀ s t, Move s t → P s → P t) {s t : State} (hs : P s) (h : step s = .next t) : P t := by
  obtain ⟨-, rfl⟩ | ⟨-, hp, w, rest, hc, rfl⟩ | ⟨-, -, -, rfl⟩ := step_cases h
  · exact reset s hs
  · exact runToWait_keeps move (start s w rest hs hp hc)
  · exact runToWait_keeps move hs

end Sys2Proof.Machine
end

