-- ==== Sys2Proof/Laws/Runs.lean ====
section
/-! SUPPORT. The runs of one phase: the bytes EMIT pushes, the samples FILL and DRAIN take, as many as the host allows. -/

namespace Sys2Proof.Machine

/-- After `n` items more the host accepts what `c` says: all, or `n` fewer. -/
abbrev AcceptsThen (a : Accept) (n : Nat) (c : Accept) : Prop :=
  a = .always ∧ c = .always ∨ ∃ m, a = .upTo (m + n) ∧ c = .upTo m

theorem AcceptsThen.zero {a c : Accept} (h : AcceptsThen a 0 c) : c = a := by
  obtain ⟨rfl, rfl⟩ | ⟨m, rfl, rfl⟩ := h <;> rfl

theorem AcceptsThen.succ {a c : Accept} {n : Nat} (h : AcceptsThen a (n + 1) c) :
    ∃ b, a.take = some b ∧ AcceptsThen b n c := by
  obtain ⟨rfl, rfl⟩ | ⟨m, rfl, rfl⟩ := h
  · exact ⟨.always, rfl, .inl ⟨rfl, rfl⟩⟩
  · exact ⟨.upTo (m + n), rfl, .inr ⟨m, rfl, rfl⟩⟩

/-- A slice of a list begins with its first element. -/
theorem take_drop_succ {α : Type} (d : α) (l : List α) (i n : Nat) (h : i < l.length) :
    (l.drop i).take (n + 1) = l.getD i d :: (l.drop (i + 1)).take n := by
  rw [List.drop_eq_getElem_cons h, List.take_succ_cons, List.getD_eq_getElem _ _ h]

/-- EMIT pushes `n` bytes that do not end the chunk. -/
theorem emit_run (n : Nat) : ∀ {s : State} {c : Accept}, s.phase = .emit → s.emitOff + n < 16 →
    (emitBytes s).length = 16 → AcceptsThen s.outAccept n c →
      runToWait s = runToWait
        { s with
          outAccept := c, emitOff := s.emitOff + n
          trace := s.trace ++ (((emitBytes s).drop s.emitOff).take n).map .byte } := by
  induction n with
  | zero =>
    intro s c hp ho hl ha
    simp [ha.zero]
  | succ n ih =>
    intro s c hp ho hl ha
    obtain ⟨b, hb, hbc⟩ := ha.succ
    have hm := Move.emitByte hp (by omega) b hb
    rw [runToWait_of_move hm]
    have := ih (s := { s with
      outAccept := b, trace := s.trace ++ [.byte ((emitBytes s).getD s.emitOff 0)], emitOff := s.emitOff + 1 })
      hp (by simp only; omega) hl hbc
    rw [this]
    have he : emitBytes { s with
        outAccept := b, trace := s.trace ++ [.byte ((emitBytes s).getD s.emitOff 0)], emitOff := s.emitOff + 1 } =
      emitBytes s := rfl
    rw [he, take_drop_succ 0 _ _ n (by omega)]
    simp only [List.append_assoc, List.singleton_append, List.map_cons, Nat.add_assoc, Nat.add_comm 1 n]

/-- EMIT pushes a whole chunk. -/
theorem emit_chunk {s : State} {c : Accept} (hp : s.phase = .emit) (ho : s.emitOff = 0)
    (hl : (emitBytes s).length = 16) (ha : AcceptsThen s.outAccept 16 c) :
    runToWait s = runToWait
      (finishChunk { s with outAccept := c, emitOff := 0, trace := s.trace ++ (emitBytes s).map .byte }) := by
  obtain ⟨b, hb1, hb2⟩ : ∃ b, AcceptsThen s.outAccept 15 b ∧ AcceptsThen b 1 c := by
    obtain ⟨h1, h2⟩ | ⟨m, h1, h2⟩ := ha
    · exact ⟨.always, .inl ⟨h1, rfl⟩, .inl ⟨rfl, h2⟩⟩
    · exact ⟨.upTo (m + 1), .inr ⟨m + 1, by rw [h1], rfl⟩, .inr ⟨m, rfl, h2⟩⟩
  obtain ⟨d, hd, hdc⟩ := hb2.succ
  obtain rfl := hdc.zero
  rw [emit_run 15 hp (by omega) hl hb1]
  have hm := Move.emitLast (s := { s with
    outAccept := b, emitOff := s.emitOff + 15
    trace := s.trace ++ (((emitBytes s).drop s.emitOff).take 15).map .byte }) hp (by simp only; omega) c hd
  rw [runToWait_of_move hm]
  have he : emitBytes { s with
      outAccept := b, emitOff := s.emitOff + 15
      trace := s.trace ++ (((emitBytes s).drop s.emitOff).take 15).map .byte } = emitBytes s := rfl
  have hsplit : (emitBytes s).take 15 ++ [(emitBytes s).getD 15 0] = emitBytes s := by
    rw [List.getD_eq_getElem _ _ (by omega), List.take_append_getElem, List.take_of_length_le (by omega)]
  have htr : s.trace ++ (((emitBytes s).drop s.emitOff).take 15).map .byte ++
      [Transfer.byte ((emitBytes s).getD (s.emitOff + 15) 0)] = s.trace ++ (emitBytes s).map .byte := by
    rw [ho, List.drop_zero, List.append_assoc]
    conv_rhs => rw [← hsplit]
    simp
  simp only [he, htr]

/-- FILL takes as many samples as are offered and still belong to the block. -/
theorem fill_run (ys : List Sample) : ∀ {s : State} {rest : List Sample}, s.phase = .fill → s.remain ≠ 0#24 →
    s.smp = ys ++ rest → s.work.sb.length + ys.length ≤ blockTake s →
      runToWait s = runToWait
        { s with
          smp := rest, trace := s.trace ++ ys.map .sample, work := { s.work with sb := s.work.sb ++ ys } } := by
  induction ys with
  | nil =>
    intro s rest hp hr hs hl
    obtain rfl : rest = s.smp := by simpa using hs.symm
    simp
  | cons y ys ih =>
    intro s rest hp hr hs hl
    rw [List.length_cons] at hl
    have hm := Move.fillTake hp hr (by omega) y (ys ++ rest) hs
    rw [runToWait_of_move hm]
    have := ih (s := { s with
      smp := ys ++ rest, trace := s.trace ++ [.sample y], work := { s.work with sb := s.work.sb ++ [y] } })
      (rest := rest) hp hr rfl (by
        simp only [List.length_append, List.length_singleton]
        exact Nat.le_trans (by omega) hl)
    rw [this]
    simp only [List.append_assoc, List.singleton_append, List.map_cons]

/-- DRAIN takes as many samples as are offered and still belong to the packet. -/
theorem drain_run (ys : List Sample) : ∀ {s : State} {rest : List Sample}, s.phase = .drain → s.smp = ys ++ rest →
    ys.length ≤ s.remain.toNat →
      runToWait s = runToWait
        { s with
          smp := rest, trace := s.trace ++ ys.map .sample, remain := s.remain - BitVec.ofNat 24 ys.length } := by
  induction ys with
  | nil =>
    intro s rest hp hs hl
    obtain rfl : rest = s.smp := by simpa using hs.symm
    simp
  | cons y ys ih =>
    intro s rest hp hs hl
    have hr : s.remain ≠ 0#24 := fun h0 => by simp [h0] at hl
    have hm := Move.drainTake hp hr y (ys ++ rest) hs
    rw [runToWait_of_move hm]
    have hlen : ys.length ≤ (s.remain - 1).toNat := by
      have := sub_one_toNat hr
      rw [List.length_cons] at hl
      omega
    have := ih (s := { s with smp := ys ++ rest, trace := s.trace ++ [.sample y], remain := s.remain - 1 })
      (rest := rest) hp rfl hlen
    rw [this]
    have he : s.remain - 1 - BitVec.ofNat 24 ys.length = s.remain - BitVec.ofNat 24 (y :: ys).length := by
      rw [List.length_cons, BitVec.ofNat_add]
      generalize BitVec.ofNat 24 ys.length = n
      bv_omega
    simp only [he, List.append_assoc, List.singleton_append, List.map_cons]

/-- RESPOND, where the host accepts the response word. -/
theorem run_respond {s : State} {a : Accept} (hp : s.phase = .respond) (ha : s.rspAccept.take = some a) :
    runToWait s =
      finishCommand { s with rspAccept := a, trace := s.trace ++ [.rsp (responseWord s)] } := by
  rw [runToWait_of_move (.respond hp a ha),
    runToWait_of_fault (f := .waitCmd) (by simp [tick_eq_fault_iff])]

/-- Two machines whose moves match, and which stop together, end related. -/
theorem run_simulates {R : State → State → Prop}
    (move : ∀ s s' t, R s t → Move s s' → ∃ t', Move t t' ∧ R s' t')
    (stop : ∀ s t f, R s t → tick s = .fault f → ∃ g, tick t = .fault g) (s : State) :
    ∀ t, R s t → R (runToWait s) (runToWait t) := by
  induction s using run_induction with
  | stop s f h =>
    intro t hR
    obtain ⟨g, hg⟩ := stop s t f hR h
    rwa [runToWait_of_fault h, runToWait_of_fault hg]
  | move s s' h ih =>
    intro t hR
    obtain ⟨t', ht, hR'⟩ := move s s' t hR h
    rw [runToWait_of_move h, runToWait_of_move ht]
    exact ih t' hR'

end Sys2Proof.Machine
end

