-- ==== Sys2Proof/Tests/Slice0.lean ====
section
/-! SUPPORT. Tests. Their expected results are the spec's: the field tables of spec/30_encoding.md and the vectors of
spec/95_test_vectors.md, cited by number. After them, for each statement of Obligations.lean with hypotheses, a concrete
state and operands that meet them. -/

namespace Sys2Proof.Tests

open Sys2Proof Sys2Proof.Machine

/-! ### Helpers -/

/-- The reset state with words and samples offered. -/
def offered (words : List CmdWord) (samples : List Sample) : State :=
  { State.reset with cmd := words, smp := samples }

/-- What a step answers, where it answers a next state. -/
def after (o : Host.Outcome State Fault Refusal) : Option State :=
  match o with
  | .next s => some s
  | .fault _ => none
  | .refused _ => none

/-- The bytes and the response words after some steps. -/
def outRsp (k : Nat) (s : State) : Option (List Byte × List RspWord) :=
  (after (core.run k s)).map fun t => (State.out t, State.rsp t)

/-- The samples of P3 (spec/95_test_vectors.md): `s[k] = ((37*k) mod 201) - 100`. -/
def samplesP3 : List Sample :=
  (List.range 140).map fun k => BitVec.ofInt 16 (((37 * k % 201 : Nat) : Int) - 100)

/-! ### Well-formedness: each check refuses a term that fails it and no other check -/

theorem test_op_zero_is_ill_formed : (CmdFields.mk 0b0000 0 0 0 0 0).wellFormed = false := by decide
theorem test_op_three_is_ill_formed : (CmdFields.mk 0b0011 0 0 0 0 0).opKnown = false := by decide
theorem test_rsv_is_zero : (CmdFields.mk 0b0001 0b001 0 28 0 0).wellFormed = false := by decide
theorem test_end_has_no_nsamples : (CmdFields.mk 0b0010 0 0 28 0 0).wellFormed = false := by decide
theorem test_end_has_no_loop_end : (CmdFields.mk 0b0010 0 0 0 1 0).wellFormed = false := by decide
theorem test_end_has_no_loop_start : (CmdFields.mk 0b0010 0 0 0 0 1).wellFormed = false := by decide
theorem test_pkt_fields_are_well_formed : (CmdFields.mk 0b0001 0 1 140 3 1).wellFormed = true := by decide
theorem test_end_fields_are_well_formed : (CmdFields.mk 0b0010 0 1 0 0 0).wellFormed = true := by decide

/-! ### Decoding: words written field by field from the table of R70, and the words of V16 -/

theorem test_decode_pkt :
    decode (0b0001#4 ++ 0b000#3 ++ 1#1 ++ 0x00008C#24 ++ 0x0003#16 ++ 0x0001#16) = some (.pkt true 140 3 1) := by decide
theorem test_decode_end :
    decode (0b0010#4 ++ 0b000#3 ++ 1#1 ++ 0x000000#24 ++ 0x0000#16 ++ 0x0000#16) = some (.endStream true) := by decide
theorem test_decode_v16_pkt : decode 0x1100008C00030001 = some (.pkt true 140 3 1) := by decide
theorem test_decode_v16_end : decode 0x2000000000000000 = some (.endStream false) := by decide
theorem test_decode_v16_illegal_rsv : decode 0x1200001C00000000 = none := by decide
theorem test_decode_v16_illegal_end : decode 0x2000000000000001 = none := by decide
theorem test_encode_v16 : encode (.pkt false 28 0 0) = 0x1000001C00000000 := by decide
theorem test_table_rows :
    decodeTableWord 64 0x1000000000000000 = some (.pkt false 0 0 0) ∧
      decodeTableWord 64 0x2000000000000000 = some (.endStream false) := by decide
theorem test_fetch_runs_the_word :
    (after (step (State.reset.withFetchWord 64 0x2000000000000000))).map State.rsp = some [0x00000010] := by decide

/-- The configuration's widths are those of Word.lean (R7). -/
theorem test_config_fits_types : Config.hw.FitsTypes := ⟨rfl, rfl, rfl, rfl, rfl, rfl⟩

/-! ### PKT -/

/-- V4: two blocks, the histories carried from the first to the second, the second padded. -/
theorem test_pkt_v4 :
    outRsp 1 (offered [0x1000001E00000000] (List.replicate 30 100)) = some
      ([0x08, 0x00, 0x66, 0x66, 0x66, 0x66, 0x66, 0x66, 0x66, 0x66, 0x66, 0x66, 0x66, 0x66, 0x66, 0x66,
        0x38, 0x01, 0x22, 0x5C, 0x00, 0x00, 0x00, 0x00, 0x00, 0x00, 0x00, 0x00, 0x00, 0x00, 0x00, 0x00],
       [0x00000020]) := by
  decide +kernel

/-- P3: a loop with a stop; the samples of the last block are taken and discarded. -/
theorem test_pkt_p3 :
    (after (step (offered [0x1100008C00030001] samplesP3))).map
      (fun t => (t.out.length, t.rsp, t.smp, t.bidx, t.hist1.toInt)) =
      some (64, [0x00000040], [], 4, -196608) := by
  decide +kernel

/-- V8's second block: the early exit at candidate 1 forces index 0 and keeps the small minimum. -/
theorem test_early_exit_v8 :
    (let e := encodeBlock Config.hw ((List.range 28).map fun k => BitVec.ofNat 16 (1196 + 7 * k)) true 1189 1182
       5963776 6422528 false 0 0 1
     (e.work.idx, e.work.min64, e.work.shift, e.work.hdr, e.work.pay, e.hist1)) =
      (0, 448, 11, 0x0B, List.replicate 14 0x77, -89784320) := by
  decide +kernel

/-- V2: the clamp's bounds, and the corner `min_int` = 30720 of R111. -/
theorem test_clamp_v2 :
    (let e := encodeBlock Config.hw
       (([32767, -32768, 30720, -30721, 30719, -30720] : List Int).map (BitVec.ofInt 16) ++ List.replicate 22 0)
       true 0 0 0 0 false 0 0 0
     (e.work.max64, chunkBytes e.work)) =
      ([1966080, 3932096, 7096205, 6666142, 7556998],
       [0x01, 0x01, 0x87, 0x87, 0x87, 0, 0, 0, 0, 0, 0, 0, 0, 0, 0, 0]) := by
  decide +kernel

/-- V12, three rows: the history term is rounded toward minus infinity; `qs` of 32767; a negative half rounds up. -/
theorem test_quantizer_v12 :
    (quantize Config.hw 2 3 [0] 0 1 0 = ⟨[0], -2, 2, 1⟩) ∧
      (quantize Config.hw 0 1 [1966016] 0 0 0 = ⟨[32767], 2013200384, -939524096, 0⟩) ∧
      (quantize Config.hw 0 0 [-131072] 0 0 0 = ⟨[0], -134217728, 134217728, 0⟩) := by
  decide

/-- V14, two rows: the priority of LoopStart, and an index above 16 bits that no loop operand reaches. -/
theorem test_flag_v14 :
    flagOf false true 2 2 2 = (6, false) ∧ flagOf false true 70000 4464 4464 = (2, false) := by
  decide

/-! ### END and the illegal word -/

/-- P1: the terminator repeats the header byte of the packet's chunk, and END restores the stream state. -/
theorem test_end_p1 :
    (after (core.run 2 (offered [0x1000001C00000000, 0x2000000000000000] (List.replicate 28 100)))).map
      (fun t => (t.out.drop 16, t.rsp, t.lastHeader, t.fh1, t.hist1)) =
      some ([0x08, 0x07, 0, 0, 0, 0, 0, 0, 0, 0, 0, 0, 0, 0, 0, 0], [0x00000010, 0x00000010], 0x00, 0, 0) := by
  decide +kernel

/-- V16: END 1 pushes nothing and responds 0. -/
theorem test_end_of_loop : outRsp 1 (offered [0x2100000000000000] []) = some ([], [0x00000000]) := by decide

/-- P4: an illegal word between two packets changes nothing. -/
theorem test_illegal_word : outRsp 1 (offered [0x0000000000000000] [5]) = some ([], [0x80000000]) := by decide

/-! ### Waiting and reset -/

/-- A host that accepts three bytes: three are pushed and the core waits; the transfers made survive a reset (R221). -/
theorem test_reset_in_a_chunk :
    (after (step { offered [0x2000000000000000] [] with outAccept := .upTo 3 })).map
      (fun t => (t.phase, t.emitOff, (t.afterAll [.core, .host (.driveReset true), .core, .host (.driveReset false)]).out,
        (t.afterAll [.host (.driveReset true), .host (.driveReset false)]).phase)) =
      some (.emit, 3, [0x00, 0x07, 0x00], .idle) := by
  decide

/-- An item offered while reset is asserted is gone at the release, with a core step in between or without (log entry 15). -/
theorem test_offer_during_reset :
    let s := offered [] []
    let offers : List Event := [.host (.driveReset true), .host (.offerCmd 0), .host (.offerSamples [5])]
    s.afterAll (offers ++ [.host (.driveReset false)]) = s ∧
      s.afterAll (offers ++ [.core, .host (.driveReset false)]) = s := by
  decide

/-! ### Witnesses: states and operands that meet the hypotheses of the statements

The word 0 is illegal (V16), so a state that offers it is a witness for the statements about illegal words; the word
0x1000001C00000000 is PKT 28 and 0x2000000000000000 is END 0. -/

/-- An idle core to which the illegal word 0 is offered. -/
def idleIllegal (a : Accept) : State := { offered [0] [] with rspAccept := a }

/-- A core in FILL, in the first block of a packet of 28 samples, with the given samples offered. -/
def inFill (samples : List Sample) : State :=
  { offered [] samples with phase := .fill, running := .pkt, remain := 28 }

/-- A core about to answer the longest packet: 599187 blocks, 9586992 bytes (R26, R27). -/
def longestPacket : State :=
  { offered [] [] with phase := .respond, running := .pkt, bidx := 599187, nbytes := 9586992 }

/-- A core about to push the last byte of the longest packet's last chunk. -/
def lastByte : State :=
  { offered [] [] with
    phase := .emit, running := .pkt, emitOff := 15, last := true, bidx := 599186, nbytes := 9586976
    work := { Work.cleared with pay := List.replicate 14 0 } }

theorem idleIllegal_inv : (idleIllegal .always).Inv ∧ (idleIllegal (.upTo 0)).Inv := by
  constructor <;> constructor <;> first | decide | (constructor <;> decide) | simp [idleIllegal, offered, State.reset]

theorem inFill_inv : (inFill [100]).Inv := by
  constructor <;> first | decide | (constructor <;> decide) | skip
  · exact fun _ => ⟨by decide, (by decide : 28 * (0 : BlockIdx).toNat + (28 : SampleCount).toNat ≤ 2 ^ 24 - 1)⟩

theorem longestPacket_inv : longestPacket.Inv := by
  constructor <;> first | decide | (constructor <;> decide) | skip
  · exact fun _ => ⟨by decide, (by decide : 28 * (599187 : BlockIdx).toNat ≤ 2 ^ 24 + 26)⟩

theorem lastByte_inv : lastByte.Inv := by
  constructor <;> first | decide | (constructor <;> decide) | skip
  · exact fun _ => ⟨by decide, (by decide : 28 * ((599186 : BlockIdx).toNat + 1) ≤ 2 ^ 24 + 26 ∧
      ((0 : SampleCount) ≠ 0#24 →
        28 * ((599186 : BlockIdx).toNat + 1) + (0 : SampleCount).toNat ≤ 2 ^ 24 - 1))⟩

/-- EncodeOfDecodeIsTheWord; OperandsAreTheBitFields, each clause, every field at its largest value. -/
theorem witness_decoded_words :
    decode 0x1000001C00000000 = some (.pkt false 28 0 0) ∧
      decode 0x11FFFFFFFFFFFFFF = some (.pkt true 16777215 65535 65535) ∧
      decode 0x2100000000000000 = some (.endStream true) := by decide

/-- IllegalWordsAreThoseWithIllegalFields: a word for each way to be illegal, and the words next to them that are legal. -/
theorem witness_illegal_words :
    decode 0x0FFFFFFFFFFFFFFF = none ∧ decode 0x3000000000000000 = none ∧
      decode 0x1200000000000000 = none ∧ decode 0x2800000000000000 = none ∧
      decode 0x2000000000000001 = none ∧ decode 0x2080000000000000 = none ∧
      (decode 0x1000000000000000).isSome ∧ (decode 0x2100000000000000).isSome := by decide

/-- StepRunsTheDecodedCommand; CommandsAreTakenOnlyInIdle, EveryCommandHasOneResponse and AcceptedTransfersStay in IDLE. -/
theorem witness_StepRunsTheDecodedCommand :
    let s := offered [0x2000000000000000] []
    s.resetIn = false ∧ s.phase = .idle ∧ s.cmd = 0x2000000000000000 :: [] ∧
      decode 0x2000000000000000 = some (.endStream false) ∧ (∃ t, step s = .next t) ∧
      s.cmdsTaken.length = s.rsp.length + s.unanswered := by
  refine ⟨rfl, rfl, rfl, by decide, ⟨_, rfl⟩, by decide⟩

/-- IllegalWordIsOnlyAnswered. -/
theorem witness_IllegalWordIsOnlyAnswered :
    let s := idleIllegal .always
    s.Inv ∧ s.resetIn = false ∧ s.phase = .idle ∧ s.cmd = 0 :: [] ∧ decode 0 = none ∧
      s.rspAccept.take = some .always :=
  ⟨idleIllegal_inv.1, rfl, rfl, rfl, by decide, rfl⟩

/-- IllegalWordWaitsToBeAnswered. -/
theorem witness_IllegalWordWaitsToBeAnswered :
    let s := idleIllegal (.upTo 0)
    s.Inv ∧ s.resetIn = false ∧ s.phase = .idle ∧ s.cmd = 0 :: [] ∧ decode 0 = none ∧ s.rspAccept = .upTo 0 :=
  ⟨idleIllegal_inv.2, rfl, rfl, rfl, by decide, rfl⟩

/-- OnlyTheHostCanHoldTheCore: a waiting core for each reason; the wait for a sample in FILL and in DRAIN. -/
theorem witness_OnlyTheHostCanHoldTheCore :
    (offered [] []).Waits .waitCmd ∧ (inFill []).Waits .waitSample ∧
      ({ inFill [] with phase := .drain, stop := true }).Waits .waitSample ∧
      ({ offered [] [] with phase := .emit, outAccept := .upTo 0 }).Waits .waitOut ∧
      ({ offered [] [] with phase := .respond, rspAccept := .upTo 0 }).Waits .waitRsp ∧
      (inFill []).resetIn = false :=
  ⟨⟨rfl, rfl⟩, ⟨rfl, .inl ⟨rfl, by decide⟩⟩, ⟨rfl, .inr ⟨rfl, by decide⟩⟩, ⟨rfl, rfl⟩, ⟨rfl, rfl⟩, rfl⟩

/-- EveryStepRunsToIdleOrToTheHost, EveryStepKeepsTheInvariant, TheHostReachesNoRegister, ChunksGoOutWhole and
CommandsAreTakenOnlyInIdle: a state that meets the invariant, outside IDLE, with a next state. -/
theorem witness_step_inside_a_packet :
    (inFill [100]).Inv ∧ (inFill [100]).resetIn = false ∧ (inFill [100]).phase ≠ .idle ∧
      (inFill [100]).ChunkAligned ∧ (∀ b, HostMove.offerCmd 0 ≠ .driveReset b) ∧ ∃ t, step (inFill [100]) = .next t :=
  ⟨inFill_inv, rfl, by decide, by decide, by decide, ⟨_, rfl⟩⟩

/-- CountersNeverOverflow: at its bounds with a next state; and the step to its bounds, after which IDLE keeps them. -/
theorem witness_CountersNeverOverflow :
    (longestPacket.Inv ∧ longestPacket.CountersBounded ∧ ∃ t, step longestPacket = .next t) ∧
      lastByte.Inv ∧ lastByte.CountersBounded ∧
      (after (step lastByte)).map (fun t => (t.phase, t.bidx, t.nbytes)) = some (.idle, 599187, 9586992) :=
  ⟨⟨longestPacket_inv, by decide, ⟨_, rfl⟩⟩, lastByte_inv, by decide, by decide⟩

/-- PktRunsThePseudocode, PktEmitsOneChunkPerBlock and TerminatorRepeatsTheLastHeader: one sample, one more offered. -/
theorem witness_PktRunsThePseudocode :
    let s := offered [] [5, 6]
    s.smp = [5] ++ [6] ∧ [(5 : Sample)].length = (1 : SampleCount).toNat ∧ s.outAccept = .always ∧
      s.rspAccept = .always ∧ (1 : SampleCount) ≠ 0 ∧ (1 : SampleCount).toNat ≤ s.smp.length := by decide

/-- `chunksOf`: the boundary between a packet cut short at block 0 and one whose block 0 is the last. -/
theorem witness_chunksOf :
    chunksOf true 29 0 1 = 1 ∧ chunksOf true 57 0 1 = 1 ∧ chunksOf true 28 0 1 = 1 ∧ chunksOf true 57 0 0 = 3 ∧
      chunksOf false 57 0 1 = 3 ∧ chunksOf true 140 3 1 = 4 ∧ chunksOf false 0 0 0 = 0 := by decide

/-- PktOfZeroSamplesOnlyResponds and EndOfALoopEmitsNothing: both kinds of host. -/
theorem witness_PktOfZeroSamplesOnlyResponds :
    (offered [] []).rspAccept.take = some .always ∧
      ({ offered [] [] with rspAccept := .upTo 1 }).rspAccept.take = some (.upTo 0) := by decide

/-- PktZeroesBothHistoriesFirst, and the waiting clause of PktTakesExactlyItsSamples. -/
theorem witness_PktZeroesBothHistoriesFirst :
    (1 : SampleCount) ≠ 0 ∧ (offered [] []).smp = [] ∧ (offered [] []).outAccept = .always ∧
      (offered [] []).smp.length < (1 : SampleCount).toNat := by decide

/-- PacketsAreIndependent: a state with registers and transfers of an earlier packet, and one fresh from reset. -/
theorem witness_PacketsAreIndependent :
    let s := offered [] [5]
    let t := { s with lastHeader := 0x38, fh1 := 100, hist1 := 1, trace := [.sample 100, .byte 0x38] }
    s.trace ≠ t.trace ∧ s.smp = t.smp ∧ s.outAccept = t.outAccept ∧ s.rspAccept = t.rspAccept := by decide

/-- EndEmitsTheTerminator: a host that accepts everything, and one that accepts sixteen bytes and one word. -/
theorem witness_EndEmitsTheTerminator :
    ((offered [] []).outAccept = .always ∧ (offered [] []).rspAccept.take = some .always) ∧
      (let s := { offered [] [] with outAccept := .upTo 16, rspAccept := .upTo 1 }
       s.outAccept = .upTo (0 + 16) ∧ s.rspAccept.take = some (.upTo 0)) := by decide

/-- EndPushesWhatTheHostAccepts, at both ends of its range. -/
theorem witness_EndPushesWhatTheHostAccepts :
    (0 < 16 ∧ ({ offered [] [] with outAccept := .upTo 0 }).outAccept = .upTo 0) ∧
      (15 < 16 ∧ ({ offered [] [] with outAccept := .upTo 15 }).outAccept = .upTo 15) := by decide

/-- BackPressureNeverChangesTheBytes: a host that stops the terminator in EMIT, one that stops the response, and one that
stops nothing. -/
theorem witness_BackPressureNeverChangesTheBytes :
    let s := offered [0x2000000000000000] []
    (after (step { s with outAccept := .upTo 3, rspAccept := .always })).map State.phase = some .emit ∧
      (after (step { s with outAccept := .always, rspAccept := .upTo 0 })).map State.phase = some .respond ∧
      (after (step { s with outAccept := .upTo 16, rspAccept := .upTo 1 })).map State.phase = some .idle ∧
      s.resetIn = false := by decide

/-- SamplesMayBeOfferedAtAnyTime: a step that runs out of samples in FILL, one in DRAIN, and one that does not. -/
theorem witness_SamplesMayBeOfferedAtAnyTime :
    (after (step (offered [0x1000001C00000000] [5]))).map State.phase = some .fill ∧
      (after (step { inFill [5] with phase := .drain, stop := true })).map State.phase = some .drain ∧
      (after (step (offered [0x2000000000000000] [5]))).map State.phase = some .idle ∧ [(7 : Sample)] ≠ [] := by
  decide +kernel

/-- SamplesAreClampedFirst: different samples, the same clamped samples. -/
theorem witness_SamplesAreClampedFirst :
    clampBlock [32767, 0x8000] = clampBlock [30719, 0x8800] ∧ ([32767, 0x8000] : List Sample) ≠ [30719, 0x8800] ∧
      0 < ([32767, 0x8000] : List Sample).length := by decide

/-- ResidualsAreTheFilterOutputs and MaxResidualIsTheLargestMagnitude, the ranges at their bounds. -/
theorem witness_ResidualsAreTheFilterOutputs :
    ClampedRange (-30720) ∧ ClampedRange 30719 ∧ (∀ x ∈ ([-30720, 30719] : List Int), ClampedRange x) ∧
      0 < ([-30720, 30719] : List Int).length ∧
      residuals 4 30719 (-30720) [-30720] = [64 * (-30720) - 122 * 30719 + 60 * (-30720)] := by decide

/-- SelectionTakesTheLowestMinimum: the exit at the first and at the last candidate, at 7.0 exactly; and no exit. -/
theorem witness_SelectionTakesTheLowestMinimum :
    ([448, 449, 449, 449, 449] : List Nat).getD 0 0 ≤ 448 ∧
      (([449, 449, 449, 449, 448] : List Nat).getD 4 0 ≤ 448 ∧
        ∀ q, q < 4 → 448 < ([449, 449, 449, 449, 448] : List Nat).getD q 0) ∧
      ∀ m ∈ ([449, 449, 449, 449, 449] : List Nat), 448 < m := by decide

/-- EarlyExitQuantizesTheSamplesThemselves: V6, 28 samples of 7, exactly at the threshold. -/
theorem witness_EarlyExitQuantizesTheSamplesThemselves :
    (encodeBlock Config.hw (List.replicate 28 7) true 0 0 0 0 false 0 0 0).work.min64 = 448 := by decide +kernel

/-- ShiftFollowsTheTable: both ends of the ranges, by the table of V11. -/
theorem witness_ShiftFollowsTheTable :
    [447, 64 * 7, 64 * 13 + 63, 64 * 14, 64 * 27, 64 * 7168, 64 * 14335, 64 * 14336, 64 * 30719, 64 * 30720].map
      (shiftOf Config.hw) = [0, 11, 11, 10, 10, 1, 1, 0, 0, 1] := by decide

/-- OnlyTheHistoryTermIsRounded: the saturation, at its bound and past it. -/
theorem witness_OnlyTheHistoryTermIsRounded :
    predictValue Config.hw 0 536870911 0 0 = 2 ^ 39 - 1024 ∧ predictValue Config.hw 0 536870912 0 0 = 2 ^ 39 - 1 ∧
      predictValue Config.hw 1 (-536870912) 0 0 = -2 ^ 39 := by decide

/-- ReconstructedStepIsTheFloor and PackingRoundTrips: quantizer values at both ends, and the shifts 0 and 12. -/
theorem witness_QuantizerValue :
    QuantizerValue (-32768) ∧ QuantizerValue 28672 ∧ QuantizerValue 32767 ∧ (28672 : Int) ≠ 32767 ∧ 12 ≤ 12 ∧
      (List.replicate 28 (28672 : Int)).length = 28 ∧ 13 < 14 :=
  ⟨.inr ⟨-8, by decide⟩, .inr ⟨7, by decide⟩, .inl rfl, by decide, by decide, rfl, by decide⟩

/-- HeaderHoldsIndexAndShift, at both ends, by V13. -/
theorem witness_HeaderHoldsIndexAndShift :
    headerByte 0 12 = 0x0C ∧ headerByte 4 11 = 0x4B ∧ headerByte 0 0 = 0x00 ∧ 12 ≤ 12 := by decide

/-- BlockHeadersAreLegal: this hardware; and the other value of `SHIFT_NOHIT`, below a minimum of 7 and at it (V1, V6). -/
theorem witness_BlockHeadersAreLegal :
    Config.hw.SHIFT_NOHIT = 0 ∧
      (let cfg := { Config.hw with SHIFT_NOHIT := 12 }
       cfg.SHIFT_NOHIT = 12 ∧
         (encodeBlock cfg (List.replicate 28 0) true 0 0 0 0 false 0 0 0).work.min64 = 0 ∧
         (encodeBlock cfg (List.replicate 28 7) true 0 0 0 0 false 0 0 0).work.min64 = 448) := by decide +kernel

/-- FlagFollowsTheTable, each row of a block that is not the last; an index above 16 bits is in the last. -/
theorem witness_FlagFollowsTheTable :
    (65535 : BlockIdx).toNat = (65535 : LoopIdx).toNat ∧ (65536 : BlockIdx).toNat ≠ (0 : LoopIdx).toNat ∧
      (0 : BlockIdx).toNat ≠ (3 : LoopIdx).toNat ∧ (0 : BlockIdx).toNat = (0 : LoopIdx).toNat := by decide

/-- ChunksAreSixteenBytes. -/
theorem witness_ChunksAreSixteenBytes : (List.replicate 28 (0 : Sample)).length = 28 := by decide

/-- PktChangesOnlyItsRegisters: a packet that waits for its first sample makes no transfer; one whose host accepts seven
bytes and two response words leaves none of the seven and both words. -/
theorem witness_PktChangesOnlyItsRegisters :
    (after (exec (.pkt true 28 3 1) (offered [] []))).map (fun t => (t.trace, t.lastHeader)) = some ([], 0x00) ∧
      (after (exec (.pkt false 1 0 0) { offered [] [5] with outAccept := .upTo 7, rspAccept := .upTo 2 })).map
        (fun t => (t.out.length, t.outAccept, t.rspAccept)) = some (7, .upTo 0, .upTo 2) := by
  decide +kernel

/-- ResetAbandonsTheCommand, its second clause: a core held in reset in the middle of a packet, a word offered. -/
theorem witness_ResetAbandonsTheCommand :
    ({ inFill [100] with resetIn := true, cmd := [0x2000000000000000] }).resetIn = true := rfl

/-- HistoriesFitTheirRegisters: a block of 28 samples whose last two differ. -/
theorem witness_HistoriesFitTheirRegisters :
    (List.replicate 26 (0 : Sample) ++ [7, 32767]).length = 28 ∧
      clampSample ((List.replicate 26 (0 : Sample) ++ [7, 32767]).getD 27 0) = 30719 ∧
      clampSample ((List.replicate 26 (0 : Sample) ++ [7, 32767]).getD 26 0) = 7 := by decide

end Sys2Proof.Tests
end

section
/-! PROOFS. The headers a block can have: when a test of the shift derivation fires (R109 to R111), the index an early exit
leaves (R106), and the header byte's nibbles (R142). -/

namespace Sys2Proof.Machine

/-! ### The tests of the shift derivation -/

/-- A test reads one bit of the minimum with the rounding term added (R109); below twice the mask, less the rounding term,
that bit is a comparison. -/
theorem shiftTest_iff {k m : Nat} (h : m < 15 * 2 ^ k) :
    2 ^ (k + 3) &&& (m + 2 ^ (k + 3) >>> 3) ≠ 0 ↔ 7 * 2 ^ k ≤ m := by
  have hround : 2 ^ (k + 3) >>> 3 = 2 ^ k := by
    rw [Nat.shiftRight_eq_div_pow, Nat.pow_add, Nat.mul_div_cancel _ (by decide)]
  have hmask : 2 ^ (k + 3) = 8 * 2 ^ k := by ring
  have htwice : 2 ^ (k + 3 + 1) = 16 * 2 ^ k := by ring
  rw [hround, Nat.two_pow_and]
  by_cases hm : 7 * 2 ^ k ≤ m
  · have hbit : (m + 2 ^ k).testBit (k + 3) = true :=
      Nat.testBit_of_two_pow_le_and_two_pow_add_one_gt (by omega) (by omega)
    simp [hbit, hm]
  · have hbit : (m + 2 ^ k).testBit (k + 3) = false := Nat.testBit_eq_false_of_lt (by omega)
    simp [hbit, hm]

/-- The search with `k + 1` tests to go fires at a minimum of `7 * 2 ^ k` or more, or goes on with half the mask. -/
theorem shiftSearch_succ (nohit s : Nat) {k m : Nat} (h : m < 15 * 2 ^ k) :
    shiftSearch nohit m (k + 1) (2 ^ (k + 3)) s =
      if 7 * 2 ^ k ≤ m then s else shiftSearch nohit m k (2 ^ (k + 2)) (s + 1) := by
  have hhalf : 2 ^ (k + 3) >>> 1 = 2 ^ (k + 2) := by
    rw [Nat.shiftRight_eq_div_pow, Nat.pow_succ, Nat.pow_one, Nat.mul_div_cancel _ (by decide)]
  simp only [shiftSearch, shiftTest_iff h, hhalf]

/-- No test fires below 7. -/
theorem shiftSearch_of_lt_seven (nohit : Nat) {m : Nat} (h : m < 7) (k : Nat) : ∀ s,
    shiftSearch nohit m k (2 ^ (k + 2)) s = nohit := by
  induction k with
  | zero => exact fun s => rfl
  | succ k ih =>
    intro s
    have hk := Nat.one_le_two_pow (n := k)
    rw [shiftSearch_succ nohit s (by omega), if_neg (by omega)]
    exact ih (s + 1)

/-- From 7 up, below the bound of the first mask, a test fires. -/
theorem shiftSearch_le_of_seven_le (nohit : Nat) {m : Nat} (h : 7 ≤ m) (k : Nat) : ∀ s, m < 15 * 2 ^ k →
    shiftSearch nohit m (k + 1) (2 ^ (k + 3)) s ≤ s + k := by
  induction k with
  | zero =>
    intro s hm
    rw [shiftSearch_succ nohit s hm, if_pos (by omega)]
    exact Nat.le_refl s
  | succ k ih =>
    intro s hm
    rw [shiftSearch_succ nohit s hm]
    split
    · exact Nat.le_add_right ..
    · exact Nat.le_trans (ih (s + 1) (by omega)) (by omega)

/-- A minimum below 7 takes the no-hit value (R111). -/
theorem shiftOf_of_lt_seven (cfg : Config) {m : Nat} (h : m < 448) : shiftOf cfg m = cfg.SHIFT_NOHIT :=
  shiftSearch_of_lt_seven cfg.SHIFT_NOHIT (by omega) 12 0

/-- Any other minimum of a block takes a shift 0..11, whatever the no-hit value is. At the largest one, 30720, the first
test overflows its bit and the second fires (R111). -/
theorem shiftOf_le_eleven_of_seven_le (cfg : Config) {m : Nat} (h : 448 ≤ m) (hm : m ≤ 1966080) :
    shiftOf cfg m ≤ 11 := by
  obtain htop | hlow : m / 64 = 30720 ∨ m / 64 < 15 * 2 ^ 11 := by omega
  · have hone : shiftOf cfg m = 1 := by
      rw [shiftOf, htop]
      rfl
    omega
  · exact shiftSearch_le_of_seven_le cfg.SHIFT_NOHIT (by omega) 11 0 hlow

/-! ### The selection -/

/-- Above the threshold of the early exit, a selection that ends at it or below ends with index 0 (R106). -/
theorem selectFrom_idx_of_min_le (xs : List (PredIdx × Nat)) : ∀ (v : Nat) (i : PredIdx), 448 < v →
    (selectFrom xs (some v) i).2.getD 0 ≤ 448 → (selectFrom xs (some v) i).1 = 0 := by
  induction xs with
  | nil => exact fun v i hv h => absurd h (Nat.not_le.2 hv)
  | cons x xs ih =>
    intro v i hv
    rw [selectFrom_some]
    split
    · exact fun _ => rfl
    · exact ih _ _ (by omega)

theorem select_idx_of_min_le {m : Nat} {ms : List Nat} (h : (select (m :: ms)).2 ≤ 448) : (select (m :: ms)).1 = 0 := by
  simp only [select, predictors, List.zip_cons_cons, selectFrom_none] at h ⊢
  split at h
  next hexit => rw [if_pos hexit]
  next hgo =>
    rw [if_neg hgo]
    exact selectFrom_idx_of_min_le _ _ _ (by omega) h

/-! ### The header byte -/

theorem headerByte_div (idx : PredIdx) {shift : Nat} (h : shift ≤ 15) : (headerByte idx shift).toNat / 16 = idx.val := by
  rw [headerByte_toNat idx h]
  omega

theorem headerByte_mod (idx : PredIdx) {shift : Nat} (h : shift ≤ 15) : (headerByte idx shift).toNat % 16 = shift := by
  rw [headerByte_toNat idx h]
  omega

theorem headerByte_legal (idx : PredIdx) {shift : Nat} (h : shift ≤ 11) : HeaderLegal (headerByte idx shift) := by
  rw [HeaderLegal, headerByte_div idx (by omega), headerByte_mod idx (by omega)]
  omega

/-! ### The header of a block -/

section Block

variable {cfg : Config} {sb : List Sample} {last : Bool} {fh1 fh2 h1 h2 : Int} {f : Bool} {ls le : LoopIdx} {b : BlockIdx}

/-- The minimum is at most candidate 0's, whose residuals are the clamped samples (R111). -/
theorem encodeBlock_min64_le : (encodeBlock cfg sb last fh1 fh2 h1 h2 f ls le b).work.min64 ≤ 1966080 := by
  have hzero : maxAbs (residuals 0 fh1 fh2 (clampBlock sb)) ≤ 1966080 := by
    rw [residuals_zero]
    refine maxAbs_le fun r hr => ?_
    obtain ⟨x, hx, rfl⟩ := List.mem_map.1 hr
    obtain ⟨hlo, hhi⟩ := clampBlock_range sb x hx
    omega
  exact Nat.le_trans (select_min_le _ _) hzero

/-- A block whose minimum is 7 or less keeps index 0 (R106, R107). -/
theorem encodeBlock_idx_of_min64_le (h : (encodeBlock cfg sb last fh1 fh2 h1 h2 f ls le b).work.min64 ≤ 448) :
    (encodeBlock cfg sb last fh1 fh2 h1 h2 f ls le b).work.idx = 0 :=
  select_idx_of_min_le h

theorem encodeBlock_shift : (encodeBlock cfg sb last fh1 fh2 h1 h2 f ls le b).work.shift =
    shiftOf cfg (encodeBlock cfg sb last fh1 fh2 h1 h2 f ls le b).work.min64 := rfl

theorem encodeBlock_hdr : (encodeBlock cfg sb last fh1 fh2 h1 h2 f ls le b).work.hdr =
    headerByte (encodeBlock cfg sb last fh1 fh2 h1 h2 f ls le b).work.idx
      (encodeBlock cfg sb last fh1 fh2 h1 h2 f ls le b).work.shift := rfl

end Block

/-- Settles O50: with a no-hit value of 0 every shift is 0..11; with 12, the minimum decides whether a test fires, and where
none does the early exit has left index 0. -/
theorem blockHeadersAreLegal : Obligations.BlockHeadersAreLegal := by
  intro cfg sb last fh1 fh2 h1 h2 f ls le b w
  have hshift : w.shift = shiftOf cfg w.min64 := encodeBlock_shift
  have hhdr : w.hdr = headerByte w.idx w.shift := encodeBlock_hdr
  refine ⟨fun hcfg => ?_, fun hcfg => ⟨fun hmin => ?_, fun hmin => ?_⟩⟩
  · have hle : w.shift ≤ 11 := by
      rcases shiftOf_le_eleven cfg w.min64 with h | h <;> omega
    rw [hhdr]
    exact ⟨headerByte_legal _ hle, headerByte_div _ (by omega), headerByte_mod _ (by omega)⟩
  · have hidx : w.idx = 0 := encodeBlock_idx_of_min64_le (Nat.le_of_lt hmin)
    rw [hhdr, hidx, hshift, shiftOf_of_lt_seven cfg hmin, hcfg]
    rfl
  · rw [hhdr, hshift]
    exact headerByte_legal _ (shiftOf_le_eleven_of_seven_le cfg hmin encodeBlock_min64_le)

end Sys2Proof.Machine
end

section
/-! PROOFS. Predictor selection: what the clamp leaves of a block (R102), the residuals written out (R103), the largest
magnitude (R104), and where the selection ends (R106). -/

namespace Sys2Proof.Machine

/-! ### The clamp -/

theorem clampBlock_getElem? (sb : List Sample) (i : Nat) : (clampBlock sb)[i]? = (sb[i]?).map clampSample :=
  List.getElem?_map

/-- Steps 1 to 8 read a block through its clamped samples only; the samples themselves are copied to `SB` (R102, R147). -/
theorem encodeBlock_of_clampBlock_eq {sb sb' : List Sample} (h : clampBlock sb = clampBlock sb') (cfg : Config)
    (last : Bool) (fh1 fh2 h1 h2 : Int) (f : Bool) (ls le : LoopIdx) (b : BlockIdx) :
    encodeBlock cfg sb last fh1 fh2 h1 h2 f ls le b =
      (let e := encodeBlock cfg sb' last fh1 fh2 h1 h2 f ls le b
       { e with work := { e.work with sb := sb } }) := by
  simp only [encodeBlock, h]

/-- Settles O35: the clamp is a maximum of a minimum, it is mapped over the block, and the block encoder reads its image. -/
theorem samplesAreClampedFirst : Obligations.SamplesAreClampedFirst :=
  ⟨fun v => clamp_eq_max_min (by decide) v.toInt, fun sb i _ => clampBlock_getElem? sb i,
    fun cfg _ _ last fh1 fh2 h1 h2 f ls le b h => encodeBlock_of_clampBlock_eq h cfg last fh1 fh2 h1 h2 f ls le b⟩

/-! ### The residuals -/

@[simp] theorem histOne_zero (c : List Int) (fh1 : Int) : histOne c fh1 0 = fh1 := rfl

@[simp] theorem histTwo_zero (c : List Int) (fh1 fh2 : Int) : histTwo c fh1 fh2 0 = fh2 := rfl

/-- After the first sample, the filter goes on with that sample as `h1` (R103). -/
@[simp] theorem histOne_cons_succ (x : Int) (xs : List Int) (fh1 : Int) (i : Nat) :
    histOne (x :: xs) fh1 (i + 1) = histOne xs x i := by
  cases i <;> simp [histOne]

/-- After the first sample, the filter goes on with the old `h1` as `h2` (R103). -/
@[simp] theorem histTwo_cons_succ (x : Int) (xs : List Int) (fh1 fh2 : Int) (i : Nat) :
    histTwo (x :: xs) fh1 fh2 (i + 1) = histTwo xs x fh1 i := by
  obtain _ | _ | i := i <;> simp [histTwo]

/-- The residual at sample `i`, written out (R103). -/
theorem residuals_getElem? (p : PredIdx) {c : List Int} : ∀ (fh1 fh2 : Int) {i : Nat}, i < c.length →
    (residuals p fh1 fh2 c)[i]? =
      some (64 * c.getD i 0 + K1N p * histOne c fh1 i + K2N p * histTwo c fh1 fh2 i) := by
  induction c with
  | nil => exact fun _ _ i hi => absurd hi (Nat.not_lt_zero i)
  | cons x xs ih =>
    intro fh1 fh2 i hi
    cases i with
    | zero => simp [residuals]
    | succ i => simpa [residuals] using ih x fh1 (Nat.lt_of_succ_lt_succ hi)

theorem residuals_zero_getElem? (fh1 fh2 : Int) {c : List Int} {i : Nat} (hi : i < c.length) :
    (residuals 0 fh1 fh2 c)[i]? = some (64 * c.getD i 0) := by
  simp [residuals_zero, hi]

theorem residuals_zero_range {c : List Int} (hc : ∀ x ∈ c, ClampedRange x) (fh1 fh2 : Int) :
    ∀ r ∈ residuals 0 fh1 fh2 c, r.natAbs ≤ 1966080 := by
  rw [residuals_zero]
  intro r hr
  obtain ⟨x, hx, rfl⟩ := List.mem_map.1 hr
  obtain ⟨hlo, hhi⟩ := hc x hx
  omega

theorem scanBlock_getElem? (p : PredIdx) (c : List Int) (fh1 fh2 : Int) :
    (scanBlock c fh1 fh2)[p.val]? = some (residuals p fh1 fh2 c) := by
  fin_cases p <;> rfl

/-- Settles O36: the residuals by induction on the samples, each one's history being the two samples before it. -/
theorem residualsAreTheFilterOutputs : Obligations.ResidualsAreTheFilterOutputs :=
  ⟨rfl, rfl, fun p fh1 fh2 c _ hi =>
    ⟨scanBlock_getElem? p c fh1 fh2, residuals_getElem? p fh1 fh2 hi, residuals_zero_getElem? fh1 fh2 hi,
      fun h1 h2 hc => ⟨residuals_range p h1 h2 hc, residuals_zero_range hc fh1 fh2⟩⟩⟩

/-! ### The largest magnitude -/

theorem maxAbs_eq_zero_or_mem (rs : List Int) : maxAbs rs = 0 ∨ ∃ r ∈ rs, r.natAbs = maxAbs rs := by
  induction rs with
  | nil => exact .inl rfl
  | cons r rs ih =>
    obtain hlt | hle := Nat.lt_or_ge r.natAbs (maxAbs rs)
    · obtain hzero | ⟨x, hx, hmax⟩ := ih
      · omega
      · exact .inr ⟨x, List.mem_cons_of_mem _ hx, hmax.trans (Nat.max_eq_right (Nat.le_of_lt hlt)).symm⟩
    · exact .inr ⟨r, List.mem_cons_self, (Nat.max_eq_left hle).symm⟩

theorem maxResiduals_scanBlock_getElem? (p : PredIdx) (c : List Int) (fh1 fh2 : Int) :
    (maxResiduals (scanBlock c fh1 fh2))[p.val]? = some (maxAbs (residuals p fh1 fh2 c)) := by
  simp only [maxResiduals, List.getElem?_map, scanBlock_getElem?, Option.map_some]

/-- Settles O37: `maxAbs` is an upper bound that is attained or 0, and the bounds are those of the residuals. -/
theorem maxResidualIsTheLargestMagnitude : Obligations.MaxResidualIsTheLargestMagnitude := by
  intro p c fh1 fh2 ms rs
  refine ⟨maxAbs rs, maxResiduals_scanBlock_getElem? p c fh1 fh2, fun _ hr => le_maxAbs hr, maxAbs_eq_zero_or_mem rs,
    fun h1 h2 hc => ⟨maxAbs_le (residuals_range p h1 h2 hc), ?_⟩⟩
  have hzero : ms.getD 0 0 = maxAbs (residuals 0 fh1 fh2 c) := rfl
  rw [hzero]
  exact maxAbs_le (residuals_zero_range hc fh1 fh2)

/-! ### The end of the selection

Both cases are stated over the candidates as pairs of index and max-residual in index order, so that "earlier" is "of a
lower index". -/

/-- The candidates stand in increasing order of index. -/
abbrev InOrder (xs : List (PredIdx × Nat)) : Prop := xs.Pairwise (·.1 < ·.1)

/-- Candidate `r` is the first of `xs` at the threshold of the early exit or below. -/
structure FirstExit (xs : List (PredIdx × Nat)) (r : PredIdx × Nat) : Prop where
  mem : r ∈ xs
  le : r.2 ≤ 448
  before : ∀ y ∈ xs, y.1 < r.1 → 448 < y.2

/-- Candidate `r` is the one of lowest index among those of `xs` with the smallest max-residual. -/
structure LowestMin (xs : List (PredIdx × Nat)) (r : PredIdx × Nat) : Prop where
  mem : r ∈ xs
  le : ∀ y ∈ xs, r.2 ≤ y.2
  before : ∀ y ∈ xs, y.1 < r.1 → r.2 < y.2

/-- The first candidate exits, or it is above the threshold and the exit is among the others. -/
theorem FirstExit.cons_cases {x r : PredIdx × Nat} {xs : List (PredIdx × Nat)} (hr : FirstExit (x :: xs) r)
    (hord : InOrder (x :: xs)) : r = x ∨ 448 < x.2 ∧ FirstExit xs r := by
  obtain ⟨hlt, -⟩ := List.pairwise_cons.1 hord
  obtain rfl | hmem := List.mem_cons.1 hr.mem
  · exact .inl rfl
  · exact .inr ⟨hr.before x List.mem_cons_self (hlt r hmem), hmem, hr.le,
      fun y hy => hr.before y (List.mem_cons_of_mem _ hy)⟩

/-- A running minimum above the threshold is out of the first exit's way. -/
theorem selectFrom_some_of_firstExit {xs : List (PredIdx × Nat)} {r : PredIdx × Nat} :
    ∀ {v : Nat} {i : PredIdx}, 448 < v → InOrder xs → FirstExit xs r → selectFrom xs (some v) i = (0, some r.2) := by
  induction xs with
  | nil => exact fun _ _ hr => absurd hr.mem List.not_mem_nil
  | cons x xs ih =>
    intro v i hv hord hr
    rw [selectFrom_some]
    obtain rfl | ⟨hx, hxs⟩ := hr.cons_cases hord
    · have hmin : min r.2 v = r.2 := Nat.min_eq_left (Nat.le_of_lt (Nat.lt_of_le_of_lt hr.le hv))
      rw [hmin, if_pos hr.le]
    · rw [if_neg (by omega)]
      exact ih (by omega) hord.of_cons hxs

theorem selectFrom_none_of_firstExit {xs : List (PredIdx × Nat)} {r : PredIdx × Nat} {i : PredIdx} (hord : InOrder xs)
    (hr : FirstExit xs r) : selectFrom xs none i = (0, some r.2) := by
  cases xs with
  | nil => exact absurd hr.mem List.not_mem_nil
  | cons x xs =>
    rw [selectFrom_none]
    obtain rfl | ⟨hx, hxs⟩ := hr.cons_cases hord
    · rw [if_pos hr.le]
    · rw [if_neg (by omega)]
      exact selectFrom_some_of_firstExit hx hord.of_cons hxs

/-- A later candidate takes over from a larger first one. -/
theorem LowestMin.cons_of_lt {w x r : PredIdx × Nat} {xs : List (PredIdx × Nat)} (hr : LowestMin (x :: xs) r)
    (hlt : x.2 < w.2) : LowestMin (w :: x :: xs) r := by
  have hw : r.2 < w.2 := Nat.lt_of_le_of_lt (hr.le x List.mem_cons_self) hlt
  exact ⟨List.mem_cons_of_mem _ hr.mem, List.forall_mem_cons.2 ⟨Nat.le_of_lt hw, hr.le⟩,
    List.forall_mem_cons.2 ⟨fun _ => hw, hr.before⟩⟩

/-- The first candidate stands against a later one that is not smaller: an equal one replaces nothing (R106). -/
theorem LowestMin.cons_of_le {w x r : PredIdx × Nat} {xs : List (PredIdx × Nat)} (hr : LowestMin (w :: xs) r)
    (hord : InOrder (w :: x :: xs)) (hle : w.2 ≤ x.2) : LowestMin (w :: x :: xs) r := by
  obtain ⟨hfirst, -⟩ := List.pairwise_cons.1 hord
  obtain ⟨hwle, hxsle⟩ := List.forall_mem_cons.1 hr.le
  obtain ⟨hwbefore, hxsbefore⟩ := List.forall_mem_cons.1 hr.before
  have hxbefore : x.1 < r.1 → r.2 < x.2 := fun hxr =>
    Nat.lt_of_lt_of_le (hwbefore (lt_trans (hfirst x List.mem_cons_self) hxr)) hle
  refine ⟨?_, List.forall_mem_cons.2 ⟨hwle, List.forall_mem_cons.2 ⟨Nat.le_trans hwle hle, hxsle⟩⟩,
    List.forall_mem_cons.2 ⟨hwbefore, List.forall_mem_cons.2 ⟨hxbefore, hxsbefore⟩⟩⟩
  obtain rfl | hmem := List.mem_cons.1 hr.mem
  · exact List.mem_cons_self
  · exact List.mem_cons_of_mem _ (List.mem_cons_of_mem _ hmem)

/-- With every candidate above the threshold, the running minimum counting as the first one, the selection ends at the
lowest minimum. -/
theorem selectFrom_some_lowestMin (xs : List (PredIdx × Nat)) : ∀ (w : PredIdx × Nat), InOrder (w :: xs) →
    (∀ y ∈ w :: xs, 448 < y.2) → ∃ r, selectFrom xs (some w.2) w.1 = (r.1, some r.2) ∧ LowestMin (w :: xs) r := by
  induction xs with
  | nil => exact fun w _ _ => ⟨w, rfl, by simp, by simp, by simp⟩
  | cons x xs ih =>
    intro w hord habove
    obtain ⟨hw, hxs⟩ := List.forall_mem_cons.1 habove
    obtain ⟨hx, hxs'⟩ := List.forall_mem_cons.1 hxs
    rw [selectFrom_some, if_neg (by omega)]
    by_cases hlt : x.2 < w.2
    · rw [if_pos hlt, Nat.min_eq_left (Nat.le_of_lt hlt)]
      obtain ⟨r, hsel, hr⟩ := ih x hord.of_cons hxs
      exact ⟨r, hsel, hr.cons_of_lt hlt⟩
    · have hle : w.2 ≤ x.2 := Nat.le_of_not_lt hlt
      have hskip : InOrder (w :: xs) := hord.sublist ((List.sublist_cons_self x xs).cons_cons w)
      rw [if_neg hlt, Nat.min_eq_right hle]
      obtain ⟨r, hsel, hr⟩ := ih w hskip (List.forall_mem_cons.2 ⟨hw, hxs'⟩)
      exact ⟨r, hsel, hr.cons_of_le hord hle⟩

theorem selectFrom_none_lowestMin {xs : List (PredIdx × Nat)} (hne : xs ≠ []) (i : PredIdx) (hord : InOrder xs)
    (habove : ∀ y ∈ xs, 448 < y.2) : ∃ r, selectFrom xs none i = (r.1, some r.2) ∧ LowestMin xs r := by
  cases xs with
  | nil => exact absurd rfl hne
  | cons x xs =>
    have hx : 448 < x.2 := habove x List.mem_cons_self
    rw [selectFrom_none, if_neg (by omega)]
    exact selectFrom_some_lowestMin xs x hord habove

/-! ### The five candidates -/

/-- The candidates of five max-residuals are each index with the max-residual at it. -/
theorem mem_zip_predictors {ms : List Nat} (hlen : ms.length = 5) (y : PredIdx × Nat) :
    y ∈ predictors.zip ms ↔ y.2 = ms.getD y.1.val 0 := by
  obtain ⟨p, m⟩ := y
  match ms, hlen with
  | [a, b, c, d, e], _ => fin_cases p <;> simp [predictors]

theorem zip_predictors_inOrder {ms : List Nat} (hlen : ms.length = 5) : InOrder (predictors.zip ms) := by
  have hfst : (predictors.zip ms).map Prod.fst = predictors := List.map_fst_zip (Nat.le_of_eq hlen.symm)
  have hpred : predictors.Pairwise (· < ·) := by decide
  rwa [← hfst, List.pairwise_map] at hpred

theorem select_of_selectFrom {ms : List Nat} {i : PredIdx} {m : Nat}
    (h : selectFrom (predictors.zip ms) none 0 = (i, some m)) : select ms = (i, m) := by
  simp only [select, h, Option.getD_some]

/-- The first max-residual of 7.0 or less ends the selection with index 0 (R106, R107). -/
theorem select_of_firstExit {ms : List Nat} (hlen : ms.length = 5) {p : Nat} (hp : p < 5) (hle : ms.getD p 0 ≤ 448)
    (hbefore : ∀ q, q < p → 448 < ms.getD q 0) : select ms = (0, ms.getD p 0) := by
  have hfirst : FirstExit (predictors.zip ms) (⟨p, hp⟩, ms.getD p 0) := by
    refine ⟨(mem_zip_predictors hlen _).2 rfl, hle, fun y hy hlt => ?_⟩
    rw [(mem_zip_predictors hlen y).1 hy]
    exact hbefore y.1.val hlt
  exact select_of_selectFrom (selectFrom_none_of_firstExit (zip_predictors_inOrder hlen) hfirst)

/-- With every max-residual above 7.0, the selection ends at the lowest minimum (R106). -/
theorem select_lowestMin {ms : List Nat} (hlen : ms.length = 5) (habove : ∀ m ∈ ms, 448 < m) :
    LowestMin (predictors.zip ms) (select ms) := by
  have hne : predictors.zip ms ≠ [] :=
    List.ne_nil_of_mem ((mem_zip_predictors hlen (0, ms.getD 0 0)).2 rfl)
  obtain ⟨r, hsel, hr⟩ := selectFrom_none_lowestMin hne 0 (zip_predictors_inOrder hlen)
    fun y hy => habove y.2 (List.of_mem_zip hy).2
  rwa [select_of_selectFrom hsel]

/-- Settles O38: by induction on the candidates still to be looked at, with the running minimum as the candidate before
them; the candidates' order turns the index of a candidate into its place. -/
theorem selectionTakesTheLowestMinimum : Obligations.SelectionTakesTheLowestMinimum := by
  intro ms hlen
  refine ⟨fun _ => select_of_firstExit hlen, fun habove => ?_⟩
  have hr := select_lowestMin hlen habove
  have hmin : (select ms).2 = ms.getD (select ms).1.val 0 := (mem_zip_predictors hlen _).1 hr.mem
  have hcand : ∀ q (hq : q < 5), (⟨q, hq⟩, ms.getD q 0) ∈ predictors.zip ms :=
    fun q hq => (mem_zip_predictors hlen _).2 rfl
  refine ⟨(select ms).1, Prod.ext rfl hmin, ?_⟩
  rw [← hmin]
  exact ⟨fun q hq => hr.le _ (hcand q hq), fun q hq => hr.before _ (hcand q (Nat.lt_trans hq (Fin.isLt _))) hq⟩

end Sys2Proof.Machine
end

section
/-! PROOFS. The quantizer: the one rounding of the predicted value (R121), the rounding to the quantizer's steps (R123), the
step back (R124), and the history a sample leaves (R125). -/

namespace Sys2Proof.Machine

/-! ### The predicted value -/

/-- The residual is a whole number of units, so it leaves the floor unrounded (R121). -/
theorem predictExact_hw (idx : PredIdx) (r64 h1 h2 : Int) :
    predictExact Config.hw idx r64 h1 h2 = r64 * 1024 + (K1N idx * h1 + K2N idx * h2) / 64 := by
  have hdef : predictExact Config.hw idx r64 h1 h2 = (64 * (r64 * 1024) + K1N idx * h1 + K2N idx * h2) / 64 := rfl
  rw [hdef, Int.add_assoc, Int.mul_add_ediv_left _ _ (by decide)]

theorem predictValue_hw (idx : PredIdx) (r64 h1 h2 : Int) :
    predictValue Config.hw idx r64 h1 h2 = max (-2 ^ 39) (min (2 ^ 39 - 1) (predictExact Config.hw idx r64 h1 h2)) :=
  sat40_eq _

/-- The coefficients of the indexes 0 and 1 are whole numbers (R127). -/
theorem historyTerm_dvd {idx : PredIdx} (h : idx = 0 ∨ idx = 1) (h1 h2 : Int) :
    64 ∣ K1N idx * h1 + K2N idx * h2 := by
  obtain rfl | rfl := h <;> simp only [K1N, K2N] <;> omega

/-- Settles O42: only the history term stands under the floor, and it is a multiple of 64 for the indexes 0 and 1. -/
theorem onlyTheHistoryTermIsRounded : Obligations.OnlyTheHistoryTermIsRounded := by
  intro idx r64 h1 h2 acc p
  have hp : p = r64 * 1024 + (K1N idx * h1 + K2N idx * h2) / 64 := predictExact_hw idx r64 h1 h2
  have hacc : acc = 64 * (r64 * 1024) + (K1N idx * h1 + K2N idx * h2) := Int.add_assoc ..
  refine ⟨by omega, by omega, hp, fun hidx => ?_, predictValue_hw idx r64 h1 h2⟩
  have hdvd := historyTerm_dvd hidx h1 h2
  omega

/-! ### The quantized value -/

theorem roundStep_hw (shift : Nat) (p : Int) :
    roundStep Config.hw shift p = 4096 * ((p * 2 ^ shift + 134217728) / 268435456) := rfl

theorem quantizeValue_eq (cfg : Config) (shift : Nat) (p : Int) :
    quantizeValue cfg shift p = max (-32768) (min 32767 (roundStep cfg shift p)) :=
  clamp_eq_max_min (by decide) _

/-- `q0` is the step whose half-open interval holds the scaled value (R123). -/
theorem roundStep_hw_eq_iff (shift : Nat) (p n : Int) : roundStep Config.hw shift p = 4096 * n ↔
    (4096 * n - 2048) * 65536 ≤ p * 2 ^ shift ∧ p * 2 ^ shift < (4096 * n + 2048) * 65536 := by
  rw [roundStep_hw]
  generalize p * 2 ^ shift = scaled
  omega

/-- The clamp cuts a step above the top one to 32767, and leaves a step otherwise (R123). -/
theorem quantizerValue_clamp (n : Int) : QuantizerValue (max (-32768) (min 32767 (4096 * n))) := by
  obtain hlow | hmid | htop : n < -8 ∨ (-8 ≤ n ∧ n ≤ 7) ∨ 7 < n := by omega
  · exact .inr ⟨-8, by omega⟩
  · exact .inr ⟨n, by omega⟩
  · exact .inl (by omega)

theorem quantizerValue_quantizeValue (cfg : Config) (shift : Nat) (p : Int) :
    QuantizerValue (quantizeValue cfg shift p) := by
  rw [quantizeValue_eq]
  exact quantizerValue_clamp _

/-- Settles O43: the floor of the biased value is an interval of the scaled one, and the clamp leaves a quantizer value. -/
theorem quantizerRoundsToTheNearestStep : Obligations.QuantizerRoundsToTheNearestStep :=
  fun shift p => ⟨roundStep_hw_eq_iff shift p, quantizeValue_eq Config.hw shift p,
    quantizerValue_quantizeValue Config.hw shift p⟩

/-! ### The step back -/

theorem asr_floor (q : Int) (s : Nat) : asr q s * 2 ^ s ≤ q ∧ q < (asr q s + 1) * 2 ^ s :=
  have hpos : (0 : Int) < 2 ^ s := Int.pow_pos (by decide)
  ⟨Int.ediv_mul_le q (Int.ne_of_gt hpos), Int.lt_ediv_add_one_mul_self q hpos⟩

/-- A multiple of 4096 loses no bit in a shift of at most 12 (R124). -/
theorem asr_mul_cancel {q : Int} {s : Nat} (hq : 4096 ∣ q) (hs : s ≤ 12) : asr q s * 2 ^ s = q := by
  have hpow : (2 : Int) ^ s ∣ 2 ^ 12 := pow_dvd_pow 2 hs
  exact Int.ediv_mul_cancel (Int.dvd_trans hpow hq)

theorem QuantizerValue.dvd {q : Int} (h : QuantizerValue q) (hne : q ≠ 32767) : 4096 ∣ q := by
  obtain htop | ⟨k, -, -, hk⟩ := h
  · exact absurd htop hne
  · exact ⟨k, hk⟩

/-- What 32767, the one value that is no multiple of 4096, gives for each shift (R124). -/
theorem asr_32767 : ∀ s, s ≤ 12 →
    asr 32767 s = [32767, 16383, 8191, 4095, 2047, 1023, 511, 255, 127, 63, 31, 15, 7].getD s 0 := by
  decide

/-- Settles O44: the shift is a floor, and a quantizer value other than 32767 is a multiple of 4096. -/
theorem reconstructedStepIsTheFloor : Obligations.ReconstructedStepIsTheFloor :=
  ⟨asr_floor, fun _ _ hq hne hs => asr_mul_cancel (hq.dvd hne) hs, asr_32767⟩

/-! ### The history of a sample -/

/-- A run over two lists is a run over the first, then one over the second from what the first left (R126). -/
theorem quantize_append (cfg : Config) (idx : PredIdx) (shift : Nat) (rs rs' : List Int) (p h1 h2 : Int) :
    quantize cfg idx shift (rs ++ rs') p h1 h2 =
      (let a := quantize cfg idx shift rs p h1 h2
       let b := quantize cfg idx shift rs' a.p a.hist1 a.hist2
       ⟨a.q ++ b.q, b.p, b.hist1, b.hist2⟩) := by
  induction rs generalizing p h1 h2 with
  | nil => rfl
  | cons r rs ih => simp only [List.cons_append, quantize, ih]

/-- The last residual is quantized from the history the ones before it left (R121 to R126). -/
theorem quantize_concat (cfg : Config) (idx : PredIdx) (shift : Nat) (rs : List Int) (r p0 h1 h2 : Int) :
    quantize cfg idx shift (rs ++ [r]) p0 h1 h2 =
      (let b := quantize cfg idx shift rs p0 h1 h2
       let p := predictValue cfg idx r b.hist1 b.hist2
       let q := quantizeValue cfg shift p
       ⟨b.q ++ [q], p, errorTerm cfg shift p q, b.hist1⟩) :=
  quantize_append cfg idx shift rs [r] p0 h1 h2

theorem errorTerm_hw (shift : Nat) (p q : Int) :
    errorTerm Config.hw shift p q = max (-2 ^ 39) (min (2 ^ 39 - 1) (q / 2 ^ shift * 65536 - p)) :=
  sat40_eq _

/-- Settles O46: the appended residual is quantized last, and its error term is the saturated quantization error. -/
theorem historyIsTheQuantizationError : Obligations.HistoryIsTheQuantizationError := by
  intro idx shift rs r p0 h1 h2 b e
  have hlast : e = _ := quantize_concat Config.hw idx shift rs r p0 h1 h2
  rw [hlast]
  exact ⟨_, rfl, rfl, rfl, rfl, errorTerm_hw ..⟩

end Sys2Proof.Machine
end

section
/-! PROOFS. What packing keeps of the quantized samples (R140, R141, R143), the header byte (R142), and the rows of the flag
table (R144). -/

namespace Sys2Proof.Machine

/-! ### Packing -/

/-- Payload byte `j` is made of the codes `2j` and `2j + 1`, the earlier one in the low nibble (R141). -/
theorem packCodes_getElem? (cs : List Nibble) : ∀ {j : Nat}, 2 * j + 1 < cs.length →
    (packCodes cs)[j]? = some (cs.getD (2 * j + 1) 0 ++ cs.getD (2 * j) 0) := by
  induction cs using packCodes.induct with
  | case1 lo hi rest ih =>
    intro j hj
    cases j with
    | zero => rfl
    | succ j => exact ih (by simp only [List.length_cons] at hj; omega)
  | case2 x => exact fun hj => absurd hj (by simp)
  | case3 => exact fun hj => absurd hj (by simp)

/-- Payload byte `j` of a block, from its quantized samples (R140, R141). -/
theorem packCodes_map_codeOf_getElem? {qs : List Int} {j : Nat} (h : 2 * j + 1 < qs.length) :
    (packCodes (qs.map codeOf))[j]? = some (codeOf (qs.getD (2 * j + 1) 0) ++ codeOf (qs.getD (2 * j) 0)) := by
  have hzero : codeOf 0 = 0 := rfl
  rw [packCodes_getElem? _ (by rwa [List.length_map]), ← hzero, List.getD_map, List.getD_map]

/-- As a signed number, the code of a 16-bit value is that value's quotient by 4096, rounded down (R140). -/
theorem codeOf_toInt {q : Int} (hlo : -32768 ≤ q) (hhi : q ≤ 32767) : (codeOf q).toInt = q / 4096 := by
  rw [codeOf, BitVec.toInt_eq_toNat_bmod, BitVec.extractLsb'_toNat, BitVec.toNat_ofInt, Nat.shiftRight_eq_div_pow,
    Int.bmod_def]
  omega

theorem QuantizerValue.range {q : Int} (h : QuantizerValue q) : -32768 ≤ q ∧ q ≤ 32767 := by
  obtain htop | ⟨k, hlo, hhi, hk⟩ := h <;> omega

/-- Settles O48: a payload byte is two codes, each the top nibble of its sample, and a code read as a signed number is the
floor of its sample by 4096, which of the quantizer's values rounds only 32767. -/
theorem packingRoundTrips : Obligations.PackingRoundTrips := by
  refine ⟨fun qs hlen j hj => ?_, fun q hq => ?_⟩
  · have hbyte : (packCodes (qs.map codeOf))[j]? = _ := packCodes_map_codeOf_getElem? (by omega)
    rw [List.getD_eq_getElem?_getD, hbyte]
    exact ⟨BitVec.extractLsb'_append_eq_right, BitVec.extractLsb'_append_eq_left⟩
  · obtain ⟨hlo, hhi⟩ := hq.range
    rw [codeOf_toInt hlo hhi]
    split
    next htop => rw [htop]; rfl
    next hne => exact Int.ediv_mul_cancel (hq.dvd hne)

/-! ### The header byte -/

/-- Settles O49: a shift 0..12 fits its nibble, as every index does. -/
theorem headerHoldsIndexAndShift : Obligations.HeaderHoldsIndexAndShift :=
  fun idx _ h => headerByte_toNat idx (Nat.le_trans h (by decide))

/-! ### The flag byte -/

/-- A block index equals a zero-extended loop operand where the two numbers are equal (R144). -/
theorem blockIdx_eq_setWidth_iff (b : BlockIdx) (l : LoopIdx) : b = l.setWidth 20 ↔ b.toNat = l.toNat := by
  rw [BitVec.toNat_eq, BitVec.toNat_setWidth_of_le (by decide)]

/-- The rows of an active loop on a block that is not the last, by number (R144). -/
theorem flagOf_inLoop (b : BlockIdx) (ls le : LoopIdx) : flagOf false true b ls le =
    if b.toNat = ls.toNat then (6, false) else if b.toNat = le.toNat then (3, true) else (2, false) := by
  simp only [← blockIdx_eq_setWidth_iff]
  rfl

/-- Settles O51: the rows outside an active loop read no index; those inside compare zero-extended operands. -/
theorem flagFollowsTheTable : Obligations.FlagFollowsTheTable := by
  intro b ls le
  rw [flagOf_inLoop]
  exact ⟨rfl, fun hs => if_pos hs, fun hs he => by rw [if_neg hs, if_pos he],
    fun hs he => by rw [if_neg hs, if_neg he], rfl, rfl⟩

end Sys2Proof.Machine
end

section
/-! PROOFS. PKT against the pseudocode of R160: a packet of no samples (R162), one turn of the sequencer's loop as one turn
of the pseudocode's, and the whole packet. -/

namespace Sys2Proof.Machine

/-! ### The transfers of a block -/

@[simp] theorem rspsOf_map_sample (vs : List Sample) : rspsOf (vs.map .sample) = [] := by
  induction vs with
  | nil => rfl
  | cons v vs ih => simp [ih]

@[simp] theorem rspsOf_map_byte (bs : List Byte) : rspsOf (bs.map .byte) = [] := by
  induction bs with
  | nil => rfl
  | cons b bs ih => simp [ih]

@[simp] theorem bytesOf_blockTransfers (xs : List Sample) (w : Work) : bytesOf (blockTransfers xs w) = chunkBytes w := by
  rw [blockTransfers, bytesOf_append, bytesOf_map_sample, bytesOf_map_byte, List.nil_append]

@[simp] theorem rspsOf_blockTransfers (xs : List Sample) (w : Work) : rspsOf (blockTransfers xs w) = [] := by
  rw [blockTransfers, rspsOf_append, rspsOf_map_sample, rspsOf_map_byte, List.nil_append]

/-- A chunk is two bytes and its payload (R77). -/
theorem chunkBytes_length {w : Work} (h : w.pay.length = 14) : (chunkBytes w).length = 16 := by
  rw [chunkBytes, List.length_cons, List.length_cons, h]

/-- A turn of the pseudocode's loop pushes its block's chunk and nothing else (R160). -/
theorem packetBlock_out (xs : List Sample) (s : State) :
    (packetBlock xs s).out = s.out ++ chunkBytes (packetBlock xs s).work := by
  rw [out_append (s := s) rfl, bytesOf_blockTransfers]
  rfl

/-! ### The answer of a packet -/

theorem finishChunk_of_pkt {s : State} (h : s.running = .pkt) : finishChunk s =
    loopTest { s with nbytes := s.nbytes + 16, lastHeader := s.work.hdr, bidx := s.bidx + 1 } := by
  simp [finishChunk, h]

/-- RESPOND of a packet, where the host accepts the response: the byte count is pushed and nothing else is written (R75). -/
theorem run_respond_of_pkt {s : State} {a : Accept} (hp : s.phase = .respond) (hrun : s.running = .pkt)
    (ha : s.rspAccept.take = some a) : runToWait s =
      { s with
        phase := .idle, running := .nothing, rspAccept := a, trace := s.trace ++ [.rsp (0#1 ++ s.nbytes)] } := by
  have hword : responseWord s = 0#1 ++ s.nbytes := by simp [responseWord, hrun]
  rw [run_respond hp ha, finishCommand_of_ne_end (by simp [hrun]), hword]

/-- Settles O18: with no sample left the loop tests lead straight to RESPOND, where NBYTES is still 0. -/
theorem pktOfZeroSamplesOnlyResponds : Obligations.PktOfZeroSamplesOnlyResponds := by
  intro f le ls s a ha
  have hzero : (0x00000000 : RspWord) = 0#1 ++ 0#31 := by decide
  rw [exec_eq, run_respond_of_pkt (s := startOf (some (.pkt f 0 le ls)) s) rfl rfl ha, hzero]
  rfl

/-! ### One turn of the loop -/

/-- The sequencer before the loop tests of a packet with the samples `xs` left, and `rest` offered after them: the
pseudocode's state `s`, with the fields the pseudocode does not keep. -/
def atLoopTest (p : Phase) (o : Nat) (xs rest : List Sample) (s : State) : State :=
  { s with phase := p, emitOff := o, remain := BitVec.ofNat 24 xs.length, smp := xs ++ rest }

/-- The sequencer in FILL with the samples of its block taken, the packet being as in `atLoopTest`. -/
def blockFilled (o : Nat) (xs rest : List Sample) (s : State) : State :=
  { s with
    phase := .fill
    emitOff := o
    remain := BitVec.ofNat 24 xs.length
    smp := xs.drop 28 ++ rest
    trace := s.trace ++ (xs.take 28).map .sample
    work := { s.work with sb := xs.take 28 } }

section Turn

variable {xs rest : List Sample} {s : State} {p : Phase} {o : Nat}

theorem ofNat_length_toNat (h : xs.length < 2 ^ 24) : (BitVec.ofNat 24 xs.length).toNat = xs.length := by
  rw [BitVec.toNat_ofNat, Nat.mod_eq_of_lt h]

theorem ofNat_length_ne_zero (h : xs.length < 2 ^ 24) (hne : xs ≠ []) : BitVec.ofNat 24 xs.length ≠ 0#24 := fun h0 =>
  hne (List.length_eq_zero_iff.1 (by rw [← ofNat_length_toNat h, h0]; rfl))

/-- FILL takes the block's samples, all of them offered (R163). -/
theorem run_fill (h : xs.length < 2 ^ 24) (hne : xs ≠ []) (hstop : s.stop = false) :
    runToWait (loopTest (atLoopTest p o xs rest s)) = runToWait (blockFilled o xs rest s) := by
  have hr := ofNat_length_ne_zero h hne
  have hfill : loopTest (atLoopTest p o xs rest s) =
      { atLoopTest .fill o xs rest s with work := { s.work with sb := [] } } := by
    simp [loopTest, atLoopTest, hr, hstop]
  rw [hfill, fill_run (xs.take 28) (rest := xs.drop 28 ++ rest) rfl hr]
  · rfl
  · simp [atLoopTest, ← List.append_assoc]
  · simp [atLoopTest, blockTake, ofNat_length_toNat h, Nat.min_comm]

theorem blockTake_blockFilled (h : xs.length < 2 ^ 24) : blockTake (blockFilled o xs rest s) = min xs.length 28 := by
  simp [blockTake, blockFilled, ofNat_length_toNat h]

theorem blockSamples_length (xs : List Sample) : (blockSamples xs).length = 28 := by
  simp only [blockSamples, List.length_append, List.length_replicate, List.length_take]
  omega

theorem padBlock_blockFilled_last (h : xs.length < 2 ^ 24) :
    (padBlock (blockFilled o xs rest s)).last = decide (xs.length ≤ 28) := by
  simp [blockFilled, ofNat_length_toNat h]

/-- What is left of the packet once the block has taken its samples (R160). -/
theorem padBlock_blockFilled_remain (h : xs.length < 2 ^ 24) :
    (padBlock (blockFilled o xs rest s)).remain = BitVec.ofNat 24 (xs.drop 28).length := by
  apply BitVec.eq_of_toNat_eq
  rw [padBlock_remain_toNat, blockTake_blockFilled h, ofNat_length_toNat (by rw [List.length_drop]; omega), List.length_drop]
  simp only [blockFilled, ofNat_length_toNat h]
  omega

/-- EMIT of a packet's chunk, where the host accepts every byte: the counters, LAST_HEADER, and the loop tests (R160). -/
theorem emit_chunk_of_pkt {t : State} (hp : t.phase = .emit) (ho : t.emitOff = 0) (hrun : t.running = .pkt)
    (hpay : t.work.pay.length = 14) (hout : t.outAccept = .always) : runToWait t =
      runToWait (loopTest { t with
        nbytes := t.nbytes + 16, lastHeader := t.work.hdr, bidx := t.bidx + 1
        trace := t.trace ++ (chunkBytes t.work).map .byte }) := by
  have hbytes : emitBytes t = chunkBytes t.work := by simp [emitBytes, hrun]
  have hlen : (emitBytes t).length = 16 := by rw [hbytes, chunkBytes_length hpay]
  rw [emit_chunk hp ho hlen (.inl ⟨hout, rfl⟩)]
  simp only [finishChunk_of_pkt, hrun, hbytes, ← hout, ← ho]

/-- One turn of the sequencer's loop is one turn of the pseudocode's (R160). -/
theorem run_turn (h : xs.length < 2 ^ 24) (hne : xs ≠ []) (hstop : s.stop = false) (hrun : s.running = .pkt)
    (hout : s.outAccept = .always) : runToWait (loopTest (atLoopTest p o xs rest s)) =
      runToWait (loopTest (atLoopTest .emit 0 (xs.drop 28) rest (packetBlock xs s))) := by
  have hpad : ¬ (blockFilled o xs rest s).work.sb.length < blockTake (blockFilled o xs rest s) := by
    rw [blockTake_blockFilled h]
    simp [blockFilled, Nat.min_comm]
  have hpay : (encodedBlock (padBlock (blockFilled o xs rest s))).work.pay.length = 14 :=
    encodeBlock_pay_length Config.hw (blockSamples_length xs) ..
  rw [run_fill h hne hstop, runToWait_of_move (.fillPad rfl (ofNat_length_ne_zero h hne) hpad),
    runToWait_of_move (.encode rfl),
    emit_chunk_of_pkt (t := tickEncode (padBlock (blockFilled o xs rest s))) rfl rfl hrun hpay hout]
  congr 2
  simp only [atLoopTest, packetBlock, blockTransfers, ← List.append_assoc,
    ← padBlock_blockFilled_last (o := o) (rest := rest) (s := s) h,
    ← padBlock_blockFilled_remain (o := o) (rest := rest) (s := s) h]
  rfl

end Turn

/-! ### The whole packet -/

theorem packetLoop_nil (k : Nat) (s : State) : packetLoop k [] s = s := by
  cases k <;> rfl

/-- A turn that stops is the last: the samples left are discarded (R167). -/
theorem packetLoop_of_stop {xs : List Sample} {s : State} (k : Nat) (hne : xs ≠ [])
    (hstop : (packetBlock xs s).stop = true) : packetLoop (k + 1) xs s =
      { packetBlock xs s with trace := (packetBlock xs s).trace ++ (xs.drop 28).map .sample } := by
  rw [packetLoop, if_neg hne]
  exact if_pos hstop

theorem packetLoop_of_not_stop {xs : List Sample} {s : State} (k : Nat) (hne : xs ≠ [])
    (hstop : (packetBlock xs s).stop = false) :
    packetLoop (k + 1) xs s = packetLoop k (xs.drop 28) (packetBlock xs s) := by
  rw [packetLoop, if_neg hne]
  exact if_neg (by simp [hstop])

/-- The machine once a packet is answered, from the state the pseudocode's loops leave (R160). -/
def answered (o : Nat) (rest : List Sample) (s : State) : State :=
  { s with
    phase := .idle
    running := .nothing
    emitOff := o
    remain := 0
    smp := rest
    trace := s.trace ++ [.rsp (0#1 ++ s.nbytes)] }

section Loop

variable {xs rest : List Sample} {s : State} {p : Phase} {o : Nat}

/-- With no sample left the loop tests lead to the response. -/
theorem run_answer (hrun : s.running = .pkt) (hrsp : s.rspAccept = .always) :
    runToWait (loopTest (atLoopTest p o [] rest s)) = answered o rest s := by
  have hrespond : loopTest (atLoopTest p o [] rest s) = { atLoopTest p o [] rest s with phase := .respond } := rfl
  have htake : s.rspAccept.take = some s.rspAccept := by rw [hrsp, take_always]
  rw [hrespond]
  exact run_respond_of_pkt rfl hrun htake

/-- After a stop the samples left are taken and discarded (R167). -/
theorem run_drained (h : xs.length < 2 ^ 24) (hstop : s.stop = true) (hrun : s.running = .pkt)
    (hrsp : s.rspAccept = .always) : runToWait (loopTest (atLoopTest p o xs rest s)) =
      answered o rest { s with trace := s.trace ++ xs.map .sample } := by
  by_cases hne : xs = []
  · subst hne
    simpa using run_answer hrun hrsp
  · have hdrain : loopTest (atLoopTest p o xs rest s) = atLoopTest .drain o xs rest s := by
      simp [loopTest, atLoopTest, ofNat_length_ne_zero h hne, hstop]
    have hzero : (atLoopTest .drain o xs rest s).remain - BitVec.ofNat 24 xs.length = 0 := BitVec.sub_self _
    rw [hdrain, drain_run xs rfl rfl (ofNat_length_toNat h).ge, hzero, runToWait_of_move (.drainNone rfl rfl)]
    exact run_answer (p := .drain) (s := { s with trace := s.trace ++ xs.map .sample }) hrun hrsp

/-- The sequencer runs the two loops of the pseudocode, to the response (R160). -/
theorem run_packetLoop (k : Nat) : ∀ {xs : List Sample} {s : State} {p : Phase} {o : Nat}, xs.length ≤ k →
    xs.length < 2 ^ 24 → s.stop = false → s.running = .pkt → s.outAccept = .always → s.rspAccept = .always →
      runToWait (loopTest (atLoopTest p o xs rest s)) =
        answered (if xs = [] then o else 0) rest (packetLoop k xs s) := by
  induction k with
  | zero =>
    intro xs s p o hk h hstop hrun hout hrsp
    obtain rfl := List.length_eq_zero_iff.1 (Nat.le_zero.1 hk)
    exact run_answer hrun hrsp
  | succ k ih =>
    intro xs s p o hk h hstop hrun hout hrsp
    by_cases hne : xs = []
    · subst hne
      exact run_answer hrun hrsp
    · have hpos := List.length_pos_iff.2 hne
      have hdrop := List.length_drop (i := 28) (l := xs)
      rw [run_turn h hne hstop hrun hout, if_neg hne]
      cases hstop' : (packetBlock xs s).stop with
      | true =>
        rw [packetLoop_of_stop k hne hstop']
        exact run_drained (by omega) hstop' hrun hrsp
      | false =>
        rw [packetLoop_of_not_stop k hne hstop', ih (by omega) (by omega) hstop' hrun hout hrsp, ite_self]

end Loop

/-- PKT runs the pseudocode of R160: its assignments before the loop, its two loops, and the response. -/
theorem exec_pkt_eq_packetResult (f : Bool) {n : SampleCount} (le ls : LoopIdx) {xs rest : List Sample} {s : State}
    (hs : s.smp = xs ++ rest) (hn : xs.length = n.toNat) (hout : s.outAccept = .always) (hrsp : s.rspAccept = .always) :
    exec (.pkt f n le ls) s = .next (packetResult f le ls xs rest s) := by
  obtain rfl : n = BitVec.ofNat 24 xs.length := by rw [hn, BitVec.ofNat_toNat, BitVec.setWidth_eq]
  have hstart : startOf (some (.pkt f (BitVec.ofNat 24 xs.length) le ls)) s =
      loopTest (atLoopTest s.phase s.emitOff xs rest (latchPkt f (BitVec.ofNat 24 xs.length) le ls s)) := by
    simp only [atLoopTest, ← hs]
    rfl
  rw [exec_eq, hstart, run_packetLoop (s := latchPkt ..) xs.length (Nat.le_refl _) (by omega) rfl rfl hout hrsp]
  rfl

end Sys2Proof.Machine
end

section
/-! PROOFS. The chunks the pseudocode of PKT emits: one a turn, up to a loop-end stop or the last sample (R165, R167). -/

namespace Sys2Proof.Machine

/-! ### The stop -/

/-- A stop is at block `loopEnd`, not the last, of an active loop whose two operands differ (R144, R145). -/
theorem flagOf_stop_iff (last f : Bool) (b : BlockIdx) (ls le : LoopIdx) : (flagOf last f b ls le).2 = true ↔
    last = false ∧ f = true ∧ le ≠ ls ∧ b.toNat = le.toNat := by
  cases last with
  | true => cases f <;> simp [flagOf]
  | false =>
    cases f with
    | false => simp [flagOf]
    | true =>
      rw [flagOf_inLoop, ne_eq, ← BitVec.toNat_inj]
      split
      next hs => exact iff_of_false Bool.false_ne_true fun ⟨_, _, hne, he⟩ => hne (he.symm.trans hs)
      next hs =>
        split
        next he => exact iff_of_true rfl ⟨rfl, rfl, fun h => hs (he.trans h), he⟩
        next he => exact iff_of_false Bool.false_ne_true fun ⟨_, _, _, h⟩ => he h

/-! ### The chunks of a packet -/

/-- The state `t` is that of a packet with the given loop operands that has emitted `c` chunks since `s`, and no response
(R26, R27, R165). -/
structure Emitted (f : Bool) (le ls : LoopIdx) (s : State) (c : Nat) (t : State) : Prop where
  loopFlag : t.loopFlag = f
  loopEnd : t.loopEnd = le
  loopStart : t.loopStart = ls
  bidx : t.bidx = BitVec.ofNat 20 c
  nbytes : t.nbytes = BitVec.ofNat 31 (16 * c)
  out : t.out.length = s.out.length + 16 * c
  rsp : t.rsp = s.rsp

section Count

variable {f : Bool} {n : SampleCount} {le ls : LoopIdx} {s t : State} {c : Nat} {xs : List Sample}

theorem emitted_latchPkt : Emitted f le ls s 0 (latchPkt f n le ls s) :=
  ⟨rfl, rfl, rfl, rfl, rfl, rfl, rfl⟩

/-- A turn of the loop emits one chunk more. -/
theorem Emitted.turn (h : Emitted f le ls s c t) : Emitted f le ls s (c + 1) (packetBlock xs t) where
  loopFlag := h.loopFlag
  loopEnd := h.loopEnd
  loopStart := h.loopStart
  bidx := by rw [BitVec.ofNat_add, ← h.bidx]; rfl
  nbytes := by rw [Nat.mul_succ, BitVec.ofNat_add, ← h.nbytes]; rfl
  out := by
    have hpay : (packetBlock xs t).work.pay.length = 14 :=
      encodeBlock_pay_length Config.hw (blockSamples_length xs) ..
    rw [packetBlock_out, List.length_append, h.out, chunkBytes_length hpay, Nat.mul_succ, Nat.add_assoc]
  rsp := by
    rw [rsp_append (s := t) rfl, rspsOf_blockTransfers, List.append_nil, h.rsp]

/-- Samples that are discarded emit nothing. -/
theorem Emitted.discard (h : Emitted f le ls s c t) (vs : List Sample) :
    Emitted f le ls s c { t with trace := t.trace ++ vs.map .sample } where
  loopFlag := h.loopFlag
  loopEnd := h.loopEnd
  loopStart := h.loopStart
  bidx := h.bidx
  nbytes := h.nbytes
  out := by rw [out_append (s := t) rfl, bytesOf_map_sample, List.append_nil, h.out]
  rsp := by rw [rsp_append (s := t) rfl, rspsOf_map_sample, List.append_nil, h.rsp]

theorem packetBlock_stop_iff (h : Emitted f le ls s c t) (hc : c < 2 ^ 20) : (packetBlock xs t).stop = true ↔
    28 < xs.length ∧ f = true ∧ le ≠ ls ∧ c = le.toNat := by
  have hstop : (packetBlock xs t).stop =
      (flagOf (decide (xs.length ≤ 28)) t.loopFlag t.bidx t.loopStart t.loopEnd).2 := rfl
  rw [hstop, flagOf_stop_iff, h.loopFlag, h.loopStart, h.loopEnd, h.bidx, BitVec.toNat_ofNat, Nat.mod_eq_of_lt hc]
  simp

/-- A packet whose samples are all in its `c` chunks, with no stop on the way, has `c` chunks (R165). -/
theorem chunksOf_of_all_taken (hle : n.toNat ≤ 28 * c) (hlt : 28 * c < n.toNat + 28)
    (hgo : StopsEarly f n le ls → c ≤ le.toNat) : chunksOf f n le ls = c := by
  have hns : ¬ StopsEarly f n le ls := fun h => by
    have hc := hgo h
    obtain ⟨-, -, hmore⟩ := h
    omega
  rw [chunksOf, if_neg hns]
  omega

/-- The pseudocode's loops, from the state after `c` chunks, none of them the one a stop is on, emit the chunks of the
packet in all (R165, R167). -/
theorem emitted_packetLoop (k : Nat) : ∀ {c : Nat} {xs : List Sample} {t : State}, Emitted f le ls s c t →
    xs.length = n.toNat - 28 * c → 28 * c < n.toNat + 28 → (StopsEarly f n le ls → c ≤ le.toNat) →
      xs.length ≤ k → Emitted f le ls s (chunksOf f n le ls) (packetLoop k xs t) := by
  have hn := n.isLt
  induction k with
  | zero =>
    intro c xs t ht hlen hlt hgo hk
    rw [chunksOf_of_all_taken (by omega) hlt hgo]
    exact ht
  | succ k ih =>
    intro c xs t ht hlen hlt hgo hk
    by_cases hne : xs = []
    · subst hne
      rw [List.length_nil] at hlen
      rw [packetLoop_nil, chunksOf_of_all_taken (by omega) hlt hgo]
      exact ht
    · have hpos := List.length_pos_iff.2 hne
      have hdrop := List.length_drop (i := 28) (l := xs)
      have hiff := packetBlock_stop_iff (xs := xs) ht (by omega)
      cases hstop : (packetBlock xs t).stop with
      | true =>
        obtain ⟨hlast, hf, hne', hc⟩ := hiff.1 hstop
        have hearly : StopsEarly f n le ls := ⟨hf, hne', by omega⟩
        rw [packetLoop_of_stop k hne hstop, chunksOf, if_pos hearly, ← hc]
        exact ht.turn.discard _
      | false =>
        rw [packetLoop_of_not_stop k hne hstop]
        refine ih ht.turn (by omega) (by omega) (fun h => ?_) (by omega)
        have hle := hgo h
        obtain ⟨hf, hne', hmore⟩ := h
        have : c ≠ le.toNat := fun hc => by
          rw [hiff.2 ⟨by omega, hf, hne', hc⟩] at hstop
          cases hstop
        omega

theorem chunksOf_le (f : Bool) (n : SampleCount) (le ls : LoopIdx) : chunksOf f n le ls ≤ 599187 := by
  have hn := n.isLt
  unfold chunksOf
  split
  next h =>
    obtain ⟨-, -, h⟩ := h
    omega
  next => omega

end Count

/-- A count of bytes below 2^31 is its own response word (R75). -/
theorem zero_append_ofNat {m : Nat} (h : m < 2 ^ 31) : (0#1 ++ BitVec.ofNat 31 m : RspWord) = BitVec.ofNat 32 m :=
  (BitVec.setWidth_eq_append (by decide)).symm.trans (BitVec.setWidth_ofNat_of_le_of_lt (by decide) h)

/-- Settles O23: PKT runs the pseudocode, whose loops emit one chunk a turn, up to the stop or the last sample. -/
theorem pktEmitsOneChunkPerBlock : Obligations.PktEmitsOneChunkPerBlock := by
  intro f n le ls s hlen hout hrsp
  have htake : (s.smp.take n.toNat).length = n.toNat := List.length_take_of_le hlen
  have hloop := emitted_packetLoop (f := f) (n := n) (s := s) (s.smp.take n.toNat).length
    (emitted_latchPkt (n := BitVec.ofNat 24 (s.smp.take n.toNat).length) (le := le) (ls := ls))
    htake (by omega) (fun _ => Nat.zero_le _) (Nat.le_refl _)
  have hchunks := chunksOf_le f n le ls
  refine ⟨_, exec_pkt_eq_packetResult f le ls (List.take_append_drop n.toNat s.smp).symm htake hout hrsp, rfl, ?_, ?_⟩
  · rw [out_append rfl, bytesOf_rsp, bytesOf_nil, List.append_nil]
    exact hloop.out
  · rw [rsp_append rfl, rspsOf_rsp, rspsOf_nil, hloop.rsp, hloop.nbytes, zero_append_ofNat (by omega)]

end Sys2Proof.Machine
end

section
/-! PROOFS. The answer to an illegal word (R200, R205). -/

namespace Sys2Proof.Machine

/-- RESPOND of an illegal word, where the host accepts the response: `err` alone is pushed, whatever NBYTES holds, and no
register is written (R200). -/
theorem run_respond_of_illegal {s : State} {a : Accept} (hp : s.phase = .respond) (hrun : s.running = .illegal)
    (ha : s.rspAccept.take = some a) : runToWait s =
      { s with
        phase := .idle, running := .nothing, rspAccept := a, trace := s.trace ++ [.rsp 0x80000000] } := by
  have hword : responseWord s = 0x80000000 := by simp [responseWord, hrun]
  rw [run_respond hp ha, finishCommand_of_ne_end (by simp [hrun]), hword]

/-- Settles O7: the word raises the exception, whose return leaves the sequencer in IDLE with nothing running, as the
invariant says it was before the step. -/
theorem illegalWordIsOnlyAnswered : Obligations.IllegalWordIsOnlyAnswered := by
  intro s w rest a hinv hreset hidle hcmd hillegal haccept
  have hnothing : s.running = .nothing := hinv.running.mp hidle
  have hanswer := run_respond_of_illegal (s := raiseIllegalCmd (takeCmd s w rest)) rfl rfl haccept
  rw [step_of_cmd hreset hidle hcmd, hillegal, startOf, hanswer]
  simp [raiseIllegalCmd, hidle, hnothing]

end Sys2Proof.Machine
end

section
/-! PROOFS. Decoding and encoding are inverse to each other (R70 to R74): both are read as arithmetic on the word's
number. -/

namespace Sys2Proof

/-- The words of PKT, by number (R71). -/
theorem decode_eq_pkt_iff (w : CmdWord) (f : Bool) (n : SampleCount) (le ls : LoopIdx) :
    decode w = some (.pkt f n le ls) ↔ w.toNat / 2 ^ 57 = 8 ∧
      wordLoopFlag w = f ∧ wordNsamples w = n ∧ wordLoopEnd w = le ∧ wordLoopStart w = ls := by
  rw [decode_eq]
  split
  next hpkt => simp [-Nat.reducePow, hpkt]
  next hpkt => split <;> simp [-Nat.reducePow, hpkt]

/-- The words of END, by number (R71). -/
theorem decode_eq_endStream_iff (w : CmdWord) (f : Bool) : decode w = some (.endStream f) ↔
    (w.toNat / 2 ^ 57 = 16 ∧ w.toNat % 2 ^ 56 = 0) ∧ wordLoopFlag w = f := by
  rw [decode_eq]
  split
  next hpkt => simp [-Nat.reducePow, hpkt]
  next hpkt => split <;> simp [-Nat.reducePow, *]

/-- The illegal words, by number (R71, R74). -/
theorem decode_eq_none_iff (w : CmdWord) : decode w = none ↔
    w.toNat / 2 ^ 57 ≠ 8 ∧ ¬ (w.toNat / 2 ^ 57 = 16 ∧ w.toNat % 2 ^ 56 = 0) := by
  rw [decode_eq]
  split
  next hpkt => simp [-Nat.reducePow, hpkt]
  next hpkt => split <;> simp [-Nat.reducePow, *]

/-- A bit is the value of its number. -/
theorem bool_eq_decide_toNat (f : Bool) : f = decide (f.toNat = 1) := by
  cases f <;> rfl

/-- Bit 56 of a word, as a number (R72, R73). -/
theorem wordLoopFlag_toNat (w : CmdWord) : (wordLoopFlag w).toNat = w.toNat / 2 ^ 56 % 2 := by
  obtain h | h : w.toNat / 2 ^ 56 % 2 = 0 ∨ w.toNat / 2 ^ 56 % 2 = 1 := by omega
  all_goals
    rw [wordLoopFlag_eq, h]
    rfl

theorem wordLoopFlag_eq_of_toNat {w : CmdWord} {f : Bool} (h : w.toNat / 2 ^ 56 % 2 = f.toNat) :
    wordLoopFlag w = f := by
  rw [wordLoopFlag_eq, h, ← bool_eq_decide_toNat]

theorem decode_encode_pkt (f : Bool) (n : SampleCount) (le ls : LoopIdx) :
    decode (encode (.pkt f n le ls)) = some (.pkt f n le ls) := by
  have hw := encode_pkt_toNat f n le ls
  have hf := Bool.toNat_le f
  have hn := n.isLt
  have hle := le.isLt
  have hls := ls.isLt
  refine (decode_eq_pkt_iff ..).2 ⟨by omega, wordLoopFlag_eq_of_toNat (by omega), ?_, ?_, ?_⟩ <;>
    apply BitVec.eq_of_toNat_eq
  · rw [wordNsamples_toNat]
    omega
  · rw [wordLoopEnd_toNat]
    omega
  · rw [wordLoopStart_toNat]
    omega

theorem decode_encode_endStream (f : Bool) : decode (encode (.endStream f)) = some (.endStream f) := by
  have hw := encode_end_toNat f
  have hf := Bool.toNat_le f
  exact (decode_eq_endStream_iff ..).2 ⟨by omega, wordLoopFlag_eq_of_toNat (by omega)⟩

/-- Settles O2: the word's number holds each operand in its own digits, where the decoder reads it back. -/
theorem decodeOfEncodeIsTheCommand : Obligations.DecodeOfEncodeIsTheCommand
  | .pkt f n le ls => ⟨(Laws.TableRow.pkt f n le ls).2, decode_encode_pkt f n le ls⟩
  | .endStream f => ⟨(Laws.TableRow.endStream f).2, decode_encode_endStream f⟩

/-- Settles O3: of a word that decodes, the decoder's tests fix every bit that no operand holds. -/
theorem encodeOfDecodeIsTheWord : Obligations.EncodeOfDecodeIsTheWord := by
  intro w i h
  apply BitVec.eq_of_toNat_eq
  cases i with
  | pkt f n le ls =>
    obtain ⟨hop, rfl, rfl, rfl, rfl⟩ := (decode_eq_pkt_iff ..).1 h
    rw [encode_pkt_toNat, wordLoopFlag_toNat, wordNsamples_toNat, wordLoopEnd_toNat, wordLoopStart_toNat]
    omega
  | endStream f =>
    obtain ⟨⟨hop, hzero⟩, rfl⟩ := (decode_eq_endStream_iff ..).1 h
    rw [encode_end_toNat, wordLoopFlag_toNat]
    omega

/-- The fields of R70 that decide whether a word is legal, by number. -/
theorem wordFields_wellFormed_iff (w : CmdWord) : (wordFields w).wellFormed = true ↔
    (w.toNat / 2 ^ 60 = 1 ∨ w.toNat / 2 ^ 60 = 2) ∧ w.toNat / 2 ^ 57 % 8 = 0 ∧
      (w.toNat / 2 ^ 60 = 2 → w.toNat % 2 ^ 56 = 0) := by
  have hw := w.isLt
  have hop : (wordFields w).op.toNat = w.toNat / 2 ^ 60 := by
    simp only [wordFields, BitVec.extractLsb'_toNat, Nat.shiftRight_eq_div_pow]
    omega
  have hrsv : (wordFields w).rsv.toNat = w.toNat / 2 ^ 57 % 8 := by
    simp only [wordFields, BitVec.extractLsb'_toNat, Nat.shiftRight_eq_div_pow]
  have hn : (wordFields w).nsamples.toNat = _ := wordNsamples_toNat w
  have hle : (wordFields w).loopEnd.toNat = _ := wordLoopEnd_toNat w
  have hls : (wordFields w).loopStart.toNat = _ := wordLoopStart_toNat w
  simp only [CmdFields.wellFormed, CmdFields.opKnown, CmdFields.rsvZero, CmdFields.endOperandsZero, Bool.and_eq_true,
    Bool.or_eq_true, beq_iff_eq, bne_iff_ne, ne_eq, ← BitVec.toNat_inj, hop, hrsv, hn, hle, hls, BitVec.ofNat_eq_ofNat,
    BitVec.toNat_ofNat]
  omega

/-- Settles O4: the masks of R71, the prose of R74 and the fields of R70 read the same digits of the word's number. -/
theorem illegalWordsAreThoseWithIllegalFields : Obligations.IllegalWordsAreThoseWithIllegalFields := by
  intro w
  have hw := w.isLt
  rw [← Bool.not_eq_true, wordFields_wellFormed_iff, decode_eq_none_iff]
  constructor <;> omega

/-- Settles O5: the decoder's operands are the digits of the word's number. -/
theorem operandsAreTheBitFields : Obligations.OperandsAreTheBitFields := by
  constructor
  · intro w f n le ls h
    obtain ⟨-, rfl, rfl, rfl, rfl⟩ := (decode_eq_pkt_iff ..).1 h
    exact ⟨wordLoopFlag_eq w, wordNsamples_toNat w, wordLoopEnd_toNat w, wordLoopStart_toNat w⟩
  · intro w f h
    obtain ⟨-, rfl⟩ := (decode_eq_endStream_iff ..).1 h
    exact wordLoopFlag_eq w

/-- Settles O1: the twelve words of V16, each decoded. -/
theorem decodeReadsTheWordsOfTheSpec : Obligations.DecodeReadsTheWordsOfTheSpec := by
  unfold Obligations.DecodeReadsTheWordsOfTheSpec
  decide

end Sys2Proof
end

section
/-! PROOFS. What a step transfers, and where it ends: the transfers a run of the sequencer makes with what they leave of
the channels (R50, R54), the words taken and the responses (R53, R56), and the waits (R54, R228). -/

namespace Sys2Proof.Machine

/-! ### The views of the trace -/

theorem out_eq (s : State) : s.out = bytesOf s.trace := rfl

theorem rsp_eq (s : State) : s.rsp = rspsOf s.trace := rfl

theorem taken_eq (s : State) : s.taken = samplesOf s.trace := rfl

theorem cmdsTaken_append {s t : State} {ts : List Transfer} (h : t.trace = s.trace ++ ts)
    (hno : ∀ w, Transfer.cmd w ∉ ts) :
    t.cmdsTaken = s.cmdsTaken := by
  simp only [State.cmdsTaken, h, List.filterMap_append]
  refine List.append_right_eq_self.2 (List.filterMap_eq_nil_iff.2 fun x hx => ?_)
  cases x with
  | cmd w => exact absurd hx (hno w)
  | _ => rfl

theorem cmdsTaken_takeCmd (s : State) (w : CmdWord) (rest : List CmdWord) :
    (takeCmd s w rest).cmdsTaken = s.cmdsTaken ++ [w] := by
  simp [State.cmdsTaken]

/-! ### The transfers of a run -/

theorem AcceptsFewer.trans {a b c : Accept} {j k : Nat} (h : AcceptsFewer a j b) (h' : AcceptsFewer b k c) :
    AcceptsFewer a (j + k) c := by
  refine ⟨fun ha => h'.1 (h.1 ha), fun n hn => ?_⟩
  obtain ⟨hj, hb⟩ := h.2 n hn
  obtain ⟨hk, hc⟩ := h'.2 _ hb
  exact ⟨by omega, by rw [hc, Nat.sub_sub]⟩

theorem AcceptsFewer.one {a b : Accept} (h : a.take = some b) : AcceptsFewer a 1 b :=
  (AcceptsFewer.zero a).take h

/-- Inside a command, the state `t` is `s` after the transfers `ts`: no command word among them, the samples from those
offered, the bytes and responses within what the host accepts (R50, R54). -/
structure Transfers (s : State) (ts : List Transfer) (t : State) : Prop where
  trace : t.trace = s.trace ++ ts
  noCmd : ∀ w, Transfer.cmd w ∉ ts
  cmd : t.cmd = s.cmd
  resetIn : t.resetIn = s.resetIn
  smp : s.smp = samplesOf ts ++ t.smp
  out : AcceptsFewer s.outAccept (bytesOf ts).length t.outAccept
  rsp : AcceptsFewer s.rspAccept (rspsOf ts).length t.rspAccept

theorem Transfers.refl (s : State) : Transfers s [] s :=
  ⟨by simp, by simp, rfl, rfl, rfl, .zero _, .zero _⟩

theorem Transfers.trans {s t u : State} {ts us : List Transfer} (h : Transfers s ts t) (h' : Transfers t us u) :
    Transfers s (ts ++ us) u where
  trace := by rw [h'.trace, h.trace, List.append_assoc]
  noCmd w hw := (List.mem_append.1 hw).elim (h.noCmd w) (h'.noCmd w)
  cmd := h'.cmd.trans h.cmd
  resetIn := h'.resetIn.trans h.resetIn
  smp := by rw [h.smp, h'.smp, samplesOf_append, List.append_assoc]
  out := by
    rw [bytesOf_append, List.length_append]
    exact h.out.trans h'.out
  rsp := by
    rw [rspsOf_append, List.length_append]
    exact h.rsp.trans h'.rsp

theorem move_transfers {s t : State} (h : Move s t) : ∃ ts, Transfers s ts t := by
  cases h with
  | fillNone hp hr => exact ⟨[], by simp, by simp, rfl, rfl, rfl, .zero _, .zero _⟩
  | fillTake hp hr hl v rest hs => exact ⟨[.sample v], rfl, by simp, rfl, rfl, hs, .zero _, .zero _⟩
  | fillPad hp hr hl => exact ⟨[], by simp, by simp, rfl, rfl, rfl, .zero _, .zero _⟩
  | encode hp => exact ⟨[], by simp, by simp, rfl, rfl, rfl, .zero _, .zero _⟩
  | emitByte hp ho a ha => exact ⟨[.byte _], rfl, by simp, rfl, rfl, rfl, .one ha, .zero _⟩
  | emitLast hp ho a ha =>
    exact ⟨[.byte _], finishChunk_trace _, by simp, finishChunk_cmd _, finishChunk_resetIn _,
      by simp, by simpa using AcceptsFewer.one ha, by simpa using AcceptsFewer.zero _⟩
  | drainNone hp hr => exact ⟨[], by simp, by simp, rfl, rfl, rfl, .zero _, .zero _⟩
  | drainTake hp hr v rest hs => exact ⟨[.sample v], rfl, by simp, rfl, rfl, hs, .zero _, .zero _⟩
  | respond hp a ha =>
    exact ⟨[.rsp _], finishCommand_trace _, by simp, finishCommand_cmd _, finishCommand_resetIn _,
      by simp, by simpa using AcceptsFewer.zero _, by simpa using AcceptsFewer.one ha⟩

theorem run_transfers (s : State) : ∃ ts, Transfers s ts (runToWait s) :=
  runToWait_keeps (P := fun u => ∃ ts, Transfers s ts u)
    (fun _ _ hm ⟨ts, hts⟩ => (move_transfers hm).elim fun us hus => ⟨ts ++ us, hts.trans hus⟩) ⟨[], .refl s⟩

theorem startOf_transfers (d : Option Instr) (s : State) : Transfers s [] (startOf d s) := by
  obtain ⟨hcmd, hsmp, htrace, hout, hrsp, hreset⟩ := startOf_channels d s
  refine ⟨by rw [htrace, List.append_nil], by simp, hcmd, hreset, hsmp.symm, ?_, ?_⟩
  · rw [hout]
    exact .zero _
  · rw [hrsp]
    exact .zero _

/-- A command, once its word is taken, makes the transfers of its run. -/
theorem command_transfers (d : Option Instr) (s : State) : ∃ ts, Transfers s ts (runToWait (startOf d s)) :=
  (run_transfers (startOf d s)).elim fun ts hts => ⟨ts, (startOf_transfers d s).trans hts⟩

/-- Settles O31: reset, the word taken and the run of the command only add to the trace. -/
theorem acceptedTransfersStay : Obligations.AcceptedTransfersStay := by
  intro s t h
  obtain ⟨-, rfl⟩ | ⟨-, -, w, rest, -, rfl⟩ | ⟨-, -, -, rfl⟩ := step_cases h
  · exact List.prefix_refl _
  · obtain ⟨ts, hts⟩ := command_transfers (decode w) (takeCmd s w rest)
    rw [hts.trace]
    exact (List.prefix_append _ _).trans (List.prefix_append _ _)
  · obtain ⟨ts, hts⟩ := run_transfers s
    rw [hts.trace]
    exact List.prefix_append _ _

/-- With the reset input released a step starts the command of a word and runs it, or runs the command in progress. -/
theorem step_cases_of_released {s t : State} (hr : s.resetIn = false) (h : step s = .next t) :
    (s.phase = .idle ∧ ∃ w rest, s.cmd = w :: rest ∧ t = runToWait (startOf (decode w) (takeCmd s w rest))) ∨
    (s.phase ≠ .idle ∧ (∃ u, Move s u) ∧ t = runToWait s) := by
  obtain ⟨hasserted, -⟩ | ⟨-, hidle⟩ | ⟨-, hgo⟩ := step_cases h
  · simp [hr] at hasserted
  · exact .inl hidle
  · exact .inr hgo

/-- Settles O29: in IDLE the word is taken before the command's run, and no run takes one. -/
theorem commandsAreTakenOnlyInIdle : Obligations.CommandsAreTakenOnlyInIdle := by
  intro s t hr h
  obtain ⟨hp, w, rest, hcmd, rfl⟩ | ⟨hp, -, rfl⟩ := step_cases_of_released hr h
  · obtain ⟨ts, hts⟩ := command_transfers (decode w) (takeCmd s w rest)
    refine ⟨absurd hp, fun _ => ⟨w, ts, by rw [hts.cmd, hcmd], ?_, by rw [hts.trace, List.append_assoc]; rfl⟩⟩
    rw [cmdsTaken_append hts.trace hts.noCmd, cmdsTaken_takeCmd]
  · obtain ⟨ts, hts⟩ := run_transfers s
    exact ⟨fun _ => ⟨hts.cmd, cmdsTaken_append hts.trace hts.noCmd⟩, fun hidle => absurd hidle hp⟩

/-! ### The words taken and the responses -/

theorem unanswered_of_idle {s : State} (h : s.phase = .idle) : s.unanswered = 0 := if_pos h

theorem unanswered_of_ne_idle {s : State} (h : s.phase ≠ .idle) : s.unanswered = 1 := if_neg h

theorem loopTest_phase_ne_idle (s : State) : (loopTest s).phase ≠ .idle := by
  obtain ⟨-, e⟩ | ⟨-, -, e⟩ | ⟨-, -, e⟩ := loopTest_cases s <;> simp [e]

theorem finishChunk_phase_ne_idle (s : State) : (finishChunk s).phase ≠ .idle := by
  unfold finishChunk
  split
  · exact loopTest_phase_ne_idle _
  all_goals simp

/-- A move that answers the command ends in IDLE, and no other does. -/
theorem move_rsp {s t : State} (h : Move s t) : t.rsp.length + t.unanswered = s.rsp.length + s.unanswered := by
  have hkeep : ∀ {t : State}, s.phase ≠ .idle → t.phase ≠ .idle → t.rsp = s.rsp →
      t.rsp.length + t.unanswered = s.rsp.length + s.unanswered := fun hs ht hrsp => by
    rw [hrsp, unanswered_of_ne_idle hs, unanswered_of_ne_idle ht]
  cases h with
  | fillNone hp hr => exact hkeep (by simp [hp]) (by simp) rfl
  | fillTake hp hr hl v rest hs => exact hkeep (by simp [hp]) (by simp [hp]) (by simp [rsp_eq])
  | fillPad hp hr hl => exact hkeep (by simp [hp]) (by simp) rfl
  | encode hp => exact hkeep (by simp [hp]) (by simp) rfl
  | emitByte hp ho a ha => exact hkeep (by simp [hp]) (by simp [hp]) (by simp [rsp_eq])
  | emitLast hp ho a ha => exact hkeep (by simp [hp]) (finishChunk_phase_ne_idle _) (by simp [rsp_eq])
  | drainNone hp hr => exact hkeep (by simp [hp]) (by simp) rfl
  | drainTake hp hr v rest hs => exact hkeep (by simp [hp]) (by simp [hp]) (by simp [rsp_eq])
  | respond hp a ha =>
    rw [unanswered_of_ne_idle (s := s) (by simp [hp]), unanswered_of_idle (finishCommand_phase _)]
    simp [rsp_eq]

/-- What the start of a command and every move keep, a step with the reset input released keeps. -/
theorem step_keeps_of_released {P : State → Prop}
    (start : ∀ s w rest, P s → s.phase = .idle → s.cmd = w :: rest → P (startOf (decode w) (takeCmd s w rest)))
    (move : ∀ s t, Move s t → P s → P t) {s t : State} (hr : s.resetIn = false) (hs : P s) (h : step s = .next t) :
    P t := by
  obtain ⟨hp, w, rest, hc, rfl⟩ | ⟨-, -, rfl⟩ := step_cases_of_released hr h
  · exact runToWait_keeps move (start s w rest hs hp hc)
  · exact runToWait_keeps move hs

/-- Settles O30: the word taken in IDLE is the one that is unanswered until RESPOND has pushed its response. -/
theorem everyCommandHasOneResponse : Obligations.EveryCommandHasOneResponse := by
  intro s t hr h hs
  refine step_keeps_of_released (P := fun u => u.cmdsTaken.length = u.rsp.length + u.unanswered) ?_ ?_ hr hs h
  · intro s w rest hs hp _
    have hts := startOf_transfers (decode w) (takeCmd s w rest)
    have hrsp : (startOf (decode w) (takeCmd s w rest)).rsp = s.rsp := by simp [rsp_eq, hts.trace]
    rw [cmdsTaken_append hts.trace hts.noCmd, cmdsTaken_takeCmd, hrsp, List.length_append, hs, unanswered_of_idle hp,
      unanswered_of_ne_idle (startOf_phase_ne_idle _ _)]
    rfl
  · intro s t hm hs
    obtain ⟨ts, hts⟩ := move_transfers hm
    rw [cmdsTaken_append hts.trace hts.noCmd, hs, move_rsp hm]

/-! ### Where a step ends -/

theorem step_ne_refused (s : State) (r : Refusal) : step s ≠ .refused r := by
  intro h
  cases hr : s.resetIn with
  | true => simp [step_of_reset hr] at h
  | false =>
    by_cases hp : s.phase = .idle
    · cases hc : s.cmd with
      | nil => simp [step_of_no_cmd hr hp hc] at h
      | cons w rest => simp [step_of_cmd hr hp hc] at h
    · cases ht : tick s with
      | next t => simp [step_of_move hr hp (move_of_tick ht)] at h
      | fault f => simp [step_of_fault hr hp ht] at h
      | refused r => exact tick_ne_refused s r ht

/-- A step in IDLE stops where no word is offered; in any other phase, where the command in progress waits. -/
theorem step_eq_fault_iff {s : State} (hr : s.resetIn = false) (f : Fault) : step s = .fault f ↔ s.Waits f := by
  by_cases hp : s.phase = .idle
  · cases hc : s.cmd with
    | nil => cases f <;> simp [step_of_no_cmd hr hp hc, State.Waits, hp, hc]
    | cons w rest => cases f <;> simp [step_of_cmd hr hp hc, State.Waits, hp, hc]
  · have htick : tick s = .fault f ↔ s.Waits f := by simp [tick_eq_fault_iff, hp]
    rw [← htick]
    cases ht : tick s with
    | next t => simp [step_of_move hr hp (move_of_tick ht)]
    | fault g => simp [step_of_fault hr hp ht]
    | refused r => exact absurd ht (tick_ne_refused s r)

/-- Settles O9: the faults of a step are those of a move, and in IDLE the wait for a word. -/
theorem onlyTheHostCanHoldTheCore : Obligations.OnlyTheHostCanHoldTheCore :=
  fun s hr => ⟨step_eq_fault_iff hr, step_ne_refused s⟩

/-- A run ends in IDLE or where the core waits for the host (R228). -/
theorem runToWait_idle_or_waits (s : State) : (runToWait s).phase = .idle ∨ ∃ f, (runToWait s).Waits f := by
  obtain ⟨f, hf⟩ := runToWait_stops s
  obtain hwait | ⟨hidle, -⟩ := (tick_eq_fault_iff _ f).1 hf
  · exact .inr ⟨f, hwait⟩
  · exact .inl hidle

/-- Settles O10: a step with the reset input released is a run, and every move of a run leaves fewer of them. -/
theorem everyStepRunsToIdleOrToTheHost : Obligations.EveryStepRunsToIdleOrToTheHost := by
  intro s t hr h
  obtain ⟨-, w, rest, -, rfl⟩ | ⟨-, -, rfl⟩ := step_cases_of_released hr h
  · exact runToWait_idle_or_waits _
  · exact runToWait_idle_or_waits _

end Sys2Proof.Machine
end

section
/-! PROOFS. The invariant: what it asks in each phase, one lemma a move of the sequencer, one for the start of a command
and the step that follows from them; with the counters' bounds (R26, R27) and the chunks' alignment (R60). -/

namespace Sys2Proof.Machine

/-! ### The invariant, phase by phase -/

/-- What the invariant asks of the registers in every phase (R21, R22, R28). -/
structure RegsFit (fh1 fh2 : Sample) (lastHeader : Byte) (work : Work) : Prop where
  fh1 : ClampedRange fh1.toInt
  fh2 : ClampedRange fh2.toInt
  lastHeader : HeaderLegal lastHeader
  work : WorkFits work

theorem State.Inv.regsFit {s : State} (h : s.Inv) : RegsFit s.fh1 s.fh2 s.lastHeader s.work :=
  ⟨h.fh1, h.fh2, h.lastHeader, h.work⟩

/-- Taking samples writes `SB` alone. -/
theorem WorkFits.with_sb {w : Work} (h : WorkFits w) {sb : List Sample} (hsb : sb.length ≤ 28) :
    WorkFits { w with sb := sb } :=
  { h with sb := hsb }

theorem RegsFit.with_sb {fh1 fh2 : Sample} {lastHeader : Byte} {w : Work} (h : RegsFit fh1 fh2 lastHeader w)
    {sb : List Sample} (hsb : sb.length ≤ 28) : RegsFit fh1 fh2 lastHeader { w with sb := sb } :=
  { h with work := h.work.with_sb hsb }

theorem workFits_cleared : WorkFits Work.cleared := by
  constructor <;> decide

theorem clampedRange_zero : ClampedRange (0 : Sample).toInt := by decide

theorem headerLegal_zero : HeaderLegal 0 := by decide

section Phases

variable {s : State}

theorem RegsFit.inv_idle (h : RegsFit s.fh1 s.fh2 s.lastHeader s.work) (hp : s.phase = .idle)
    (hrun : s.running = .nothing) (ho : s.emitOff = 0) : s.Inv where
  fh1 := h.fh1
  fh2 := h.fh2
  lastHeader := h.lastHeader
  work := h.work
  running := by simp [hp, hrun]
  pktPhase := by simp [hp]
  emitPhase := by simp [hp]
  emitOff := by simp [ho]
  emitOffZero _ := ho
  fill := by simp [hp]
  encode := by simp [hp]
  emit := by simp [hp]
  drain := by simp [hp]
  counters := by simp [hrun]

theorem RegsFit.inv_fill (h : RegsFit s.fh1 s.fh2 s.lastHeader s.work) (hp : s.phase = .fill)
    (hrun : s.running = .pkt) (ho : s.emitOff = 0) (hr : s.remain ≠ 0#24) (hstop : s.stop = false)
    (hsb : s.work.sb.length ≤ blockTake s) (hn : s.nbytes.toNat = 16 * s.bidx.toNat)
    (hb : 28 * s.bidx.toNat + s.remain.toNat ≤ 2 ^ 24 - 1) : s.Inv where
  fh1 := h.fh1
  fh2 := h.fh2
  lastHeader := h.lastHeader
  work := h.work
  running := by simp [hp, hrun]
  pktPhase _ := hrun
  emitPhase := by simp [hp]
  emitOff := by simp [ho]
  emitOffZero _ := ho
  fill _ := ⟨hr, hstop, hsb⟩
  encode := by simp [hp]
  emit := by simp [hp]
  drain := by simp [hp]
  counters _ := ⟨hn, by rwa [hp]⟩

theorem RegsFit.inv_encode (h : RegsFit s.fh1 s.fh2 s.lastHeader s.work) (hp : s.phase = .encode)
    (hrun : s.running = .pkt) (ho : s.emitOff = 0) (hsb : s.work.sb.length = 28)
    (hlast : s.last = true ↔ s.remain = 0#24) (hc : CountersFit s) : s.Inv where
  fh1 := h.fh1
  fh2 := h.fh2
  lastHeader := h.lastHeader
  work := h.work
  running := by simp [hp, hrun]
  pktPhase _ := hrun
  emitPhase := by simp [hp]
  emitOff := by simp [ho]
  emitOffZero _ := ho
  fill := by simp [hp]
  encode _ := ⟨hsb, hlast⟩
  emit := by simp [hp]
  drain := by simp [hp]
  counters _ := hc

theorem RegsFit.inv_emit (h : RegsFit s.fh1 s.fh2 s.lastHeader s.work) (hp : s.phase = .emit)
    (hrun : s.running = .pkt ∨ s.running = .endStream) (ho : s.emitOff < 16)
    (hchunk : s.running = .pkt → s.work.pay.length = 14 ∧ (s.stop = true → s.remain ≠ 0#24))
    (hc : s.running = .pkt → CountersFit s) : s.Inv where
  fh1 := h.fh1
  fh2 := h.fh2
  lastHeader := h.lastHeader
  work := h.work
  running := by rcases hrun with hrun | hrun <;> simp [hp, hrun]
  pktPhase := by simp [hp]
  emitPhase _ := hrun
  emitOff := ho
  emitOffZero := by simp [hp]
  fill := by simp [hp]
  encode := by simp [hp]
  emit _ := hchunk
  drain := by simp [hp]
  counters := hc

theorem RegsFit.inv_drain (h : RegsFit s.fh1 s.fh2 s.lastHeader s.work) (hp : s.phase = .drain)
    (hrun : s.running = .pkt) (ho : s.emitOff = 0) (hstop : s.stop = true) (hn : s.nbytes.toNat = 16 * s.bidx.toNat)
    (hb : 28 * s.bidx.toNat ≤ 2 ^ 24 + 26) : s.Inv where
  fh1 := h.fh1
  fh2 := h.fh2
  lastHeader := h.lastHeader
  work := h.work
  running := by simp [hp, hrun]
  pktPhase _ := hrun
  emitPhase := by simp [hp]
  emitOff := by simp [ho]
  emitOffZero _ := ho
  fill := by simp [hp]
  encode := by simp [hp]
  emit := by simp [hp]
  drain _ := hstop
  counters _ := ⟨hn, by rwa [hp]⟩

theorem RegsFit.inv_respond (h : RegsFit s.fh1 s.fh2 s.lastHeader s.work) (hp : s.phase = .respond)
    (hrun : s.running ≠ .nothing) (ho : s.emitOff = 0)
    (hc : s.running = .pkt → s.nbytes.toNat = 16 * s.bidx.toNat ∧ 28 * s.bidx.toNat ≤ 2 ^ 24 + 26) : s.Inv where
  fh1 := h.fh1
  fh2 := h.fh2
  lastHeader := h.lastHeader
  work := h.work
  running := by simp [hp, hrun]
  pktPhase := by simp [hp]
  emitPhase := by simp [hp]
  emitOff := by simp [ho]
  emitOffZero _ := ho
  fill := by simp [hp]
  encode := by simp [hp]
  emit := by simp [hp]
  drain := by simp [hp]
  counters hpkt := ⟨(hc hpkt).1, by rw [hp]; exact (hc hpkt).2⟩

/-! ### What the invariant says of the counters -/

theorem State.Inv.nbytes_of_pkt (h : s.Inv) (hrun : s.running = .pkt) : s.nbytes.toNat = 16 * s.bidx.toNat :=
  (h.counters hrun).1

theorem State.Inv.bidx_of_fill (h : s.Inv) (hp : s.phase = .fill) :
    28 * s.bidx.toNat + s.remain.toNat ≤ 2 ^ 24 - 1 := by
  obtain ⟨-, hb⟩ := h.counters (h.pktPhase (.inl hp))
  rwa [hp] at hb

theorem State.Inv.bidx_of_emit (h : s.Inv) (hp : s.phase = .emit) (hrun : s.running = .pkt) :
    28 * (s.bidx.toNat + 1) ≤ 2 ^ 24 + 26 ∧
      (s.remain ≠ 0#24 → 28 * (s.bidx.toNat + 1) + s.remain.toNat ≤ 2 ^ 24 - 1) := by
  obtain ⟨-, hb⟩ := h.counters hrun
  rwa [hp] at hb

theorem State.Inv.bidx_of_encode (h : s.Inv) (hp : s.phase = .encode) :
    28 * (s.bidx.toNat + 1) ≤ 2 ^ 24 + 26 ∧
      (s.remain ≠ 0#24 → 28 * (s.bidx.toNat + 1) + s.remain.toNat ≤ 2 ^ 24 - 1) := by
  obtain ⟨-, hb⟩ := h.counters (h.pktPhase (.inr (.inl hp)))
  rwa [hp] at hb

theorem State.Inv.bidx_of_drain (h : s.Inv) (hp : s.phase = .drain) : 28 * s.bidx.toNat ≤ 2 ^ 24 + 26 := by
  obtain ⟨-, hb⟩ := h.counters (h.pktPhase (.inr (.inr hp)))
  rwa [hp] at hb

/-! ### The moves -/

/-- The loop tests of R160 lead to FILL, DRAIN or RESPOND with the invariant met. -/
theorem inv_loopTest (h : RegsFit s.fh1 s.fh2 s.lastHeader s.work) (hrun : s.running = .pkt) (ho : s.emitOff = 0)
    (hn : s.nbytes.toNat = 16 * s.bidx.toNat) (hb : 28 * s.bidx.toNat ≤ 2 ^ 24 + 26)
    (hr : s.remain ≠ 0#24 → 28 * s.bidx.toNat + s.remain.toNat ≤ 2 ^ 24 - 1) : (loopTest s).Inv := by
  obtain ⟨-, e⟩ | ⟨-, hstop, e⟩ | ⟨hne, hstop, e⟩ := loopTest_cases s <;> rw [e]
  · exact RegsFit.inv_respond h rfl (by simp [hrun]) ho fun _ => ⟨hn, hb⟩
  · exact RegsFit.inv_drain h rfl hrun ho hstop hn hb
  · exact RegsFit.inv_fill (h.with_sb (by simp)) rfl hrun ho hne hstop (by simp) hn
      (hr hne)

theorem inv_fillTake (h : s.Inv) (hp : s.phase = .fill) (hl : s.work.sb.length < blockTake s) (v : Sample)
    (rest : List Sample) :
    ({ s with
      smp := rest, trace := s.trace ++ [.sample v], work := { s.work with sb := s.work.sb ++ [v] } } : State).Inv := by
  obtain ⟨hr, hstop, -⟩ := h.fill hp
  have hrun := h.pktPhase (.inl hp)
  have hlen : (s.work.sb ++ [v]).length ≤ blockTake s := by simpa using hl
  have h28 : blockTake s ≤ 28 := Nat.min_le_right ..
  exact RegsFit.inv_fill (h.regsFit.with_sb (Nat.le_trans hlen h28)) hp hrun
    (h.emitOffZero (by simp [hp])) hr hstop hlen (h.nbytes_of_pkt hrun) (h.bidx_of_fill hp)

theorem inv_padBlock (h : s.Inv) (hp : s.phase = .fill) (hl : ¬ s.work.sb.length < blockTake s) : (padBlock s).Inv := by
  obtain ⟨hr, -, hsb⟩ := h.fill hp
  have hrun := h.pktPhase (.inl hp)
  have hb := h.bidx_of_fill hp
  have h28 : blockTake s = min s.remain.toNat 28 := rfl
  have hpos := blockTake_pos hr
  have hlen : (padBlock s).work.sb.length = 28 := by
    simp only [padBlock_work, List.length_append, List.length_replicate]
    omega
  have hremain := padBlock_remain_toNat s
  have hzero : (padBlock s).remain = 0#24 ↔ s.remain.toNat ≤ 28 := by
    rw [← BitVec.toNat_inj, hremain, BitVec.toNat_ofNat]
    omega
  refine RegsFit.inv_encode (h.regsFit.with_sb (Nat.le_of_eq hlen)) rfl hrun
    (h.emitOffZero (by simp [hp])) hlen ?_ ⟨h.nbytes_of_pkt hrun, ?_⟩
  · rw [hzero, padBlock_last, decide_eq_true_iff]
  · simp only [padBlock_phase, padBlock_bidx, Ne, hzero, hremain]
    omega

theorem inv_tickEncode (h : s.Inv) (hp : s.phase = .encode) : (tickEncode s).Inv := by
  obtain ⟨hsb, hlast⟩ := h.encode hp
  have hrun := h.pktPhase (.inr (.inl hp))
  have hc : ∀ i, ClampedRange ((clampBlock s.work.sb).getD i 0) := getD_range (clampBlock_range _)
  have hfh : ∀ i, ClampedRange (BitVec.ofInt 16 ((clampBlock s.work.sb).getD i 0)).toInt := fun i => by
    rw [ofInt16_toInt (hc i)]
    exact hc i
  have hfits : WorkFits (encodedBlock s).work :=
    encodeBlock_fits h.work.sb _ h.fh1 h.fh2 (toInt40_range _) (toInt40_range _) ..
  have hstop : (encodedBlock s).stop = true → s.remain ≠ 0#24 := fun hs hr => by
    have hnot : s.last = false := flagOf_stop hs
    simp [hlast.2 hr] at hnot
  exact RegsFit.inv_emit ⟨hfh 27, hfh 26, h.lastHeader, hfits⟩ rfl (.inl hrun) (by simp)
    (fun _ => ⟨encodeBlock_pay_length Config.hw hsb .., hstop⟩)
    fun _ => ⟨h.nbytes_of_pkt hrun, h.bidx_of_encode hp⟩

theorem inv_emitByte (h : s.Inv) (hp : s.phase = .emit) (ho : s.emitOff + 1 < 16) (a : Accept) (ts : List Transfer) :
    ({ s with outAccept := a, trace := ts, emitOff := s.emitOff + 1 } : State).Inv :=
  RegsFit.inv_emit h.regsFit hp (h.emitPhase hp) ho (h.emit hp) fun hrun =>
    ⟨h.nbytes_of_pkt hrun, by rw [hp]; exact h.bidx_of_emit hp hrun⟩

theorem finishChunk_of_end (h : s.running = .endStream) :
    finishChunk s = { s with nbytes := 16, phase := .respond } := by
  simp [finishChunk, h]

/-- A chunk more cannot overflow the counters of a packet (R26, R27). -/
theorem State.Inv.counters_succ (h : s.Inv) (hp : s.phase = .emit) (hrun : s.running = .pkt) :
    (s.bidx + 1).toNat = s.bidx.toNat + 1 ∧ (s.nbytes + 16).toNat = 16 * (s.bidx.toNat + 1) := by
  have hn := h.nbytes_of_pkt hrun
  obtain ⟨hb, -⟩ := h.bidx_of_emit hp hrun
  constructor <;> bv_omega

theorem inv_emitLast (h : s.Inv) (hp : s.phase = .emit) (a : Accept) (ts : List Transfer) :
    (finishChunk { s with outAccept := a, trace := ts, emitOff := 0 }).Inv := by
  obtain hrun | hrun := h.emitPhase hp
  · obtain ⟨hbidx, hnbytes⟩ := h.counters_succ hp hrun
    obtain ⟨hb, hr⟩ := h.bidx_of_emit hp hrun
    rw [finishChunk_of_pkt (by exact hrun)]
    refine inv_loopTest ⟨h.fh1, h.fh2, h.work.hdr, h.work⟩ hrun rfl ?_ ?_ ?_ <;> simp only [hbidx, hnbytes]
    · exact hb
    · exact hr
  · rw [finishChunk_of_end (by exact hrun)]
    exact RegsFit.inv_respond h.regsFit rfl (by simp [hrun]) rfl (by simp [hrun])

theorem inv_drainNone (h : s.Inv) (hp : s.phase = .drain) : ({ s with phase := .respond } : State).Inv := by
  have hrun := h.pktPhase (.inr (.inr hp))
  exact RegsFit.inv_respond h.regsFit rfl (by simp [hrun]) (h.emitOffZero (by simp [hp]))
    fun _ => ⟨h.nbytes_of_pkt hrun, h.bidx_of_drain hp⟩

theorem inv_drainTake (h : s.Inv) (hp : s.phase = .drain) (rest : List Sample) (ts : List Transfer) (n : SampleCount) :
    ({ s with smp := rest, trace := ts, remain := n } : State).Inv := by
  have hrun := h.pktPhase (.inr (.inr hp))
  exact RegsFit.inv_drain h.regsFit hp hrun (h.emitOffZero (by simp [hp])) (h.drain hp)
    (h.nbytes_of_pkt hrun) (h.bidx_of_drain hp)

theorem regsFit_finishCommand (h : RegsFit s.fh1 s.fh2 s.lastHeader s.work) :
    RegsFit (finishCommand s).fh1 (finishCommand s).fh2 (finishCommand s).lastHeader (finishCommand s).work := by
  by_cases hrun : s.running = .endStream
  · rw [finishCommand_of_end hrun]
    exact ⟨clampedRange_zero, clampedRange_zero, headerLegal_zero, h.work⟩
  · rw [finishCommand_of_ne_end hrun]
    exact h

theorem inv_respond (h : s.Inv) (hp : s.phase = .respond) (a : Accept) (ts : List Transfer) :
    (finishCommand { s with rspAccept := a, trace := ts }).Inv :=
  RegsFit.inv_idle (regsFit_finishCommand h.regsFit) (by simp) (by simp)
    (by simp [h.emitOffZero (by simp [hp])])

end Phases

theorem move_keeps_inv {s t : State} (hm : Move s t) (h : s.Inv) : t.Inv := by
  cases hm with
  | fillNone hp hr => exact absurd hr (h.fill hp).1
  | fillTake hp hr hl v rest hs => exact inv_fillTake h hp hl v rest
  | fillPad hp hr hl => exact inv_padBlock h hp hl
  | encode hp => exact inv_tickEncode h hp
  | emitByte hp ho a ha => exact inv_emitByte h hp ho a _
  | emitLast hp ho a ha => exact inv_emitLast h hp a _
  | drainNone hp hr => exact inv_drainNone h hp
  | drainTake hp hr v rest hs => exact inv_drainTake h hp rest _ _
  | respond hp a ha => exact inv_respond h hp a _

/-! ### The start of a command, and the step -/

/-- A command starts in IDLE with the invariant met. -/
theorem startOf_keeps_inv (d : Option Instr) {s : State} (h : s.Inv) (hp : s.phase = .idle) : (startOf d s).Inv := by
  have ho := h.emitOffZero (by simp [hp])
  rcases d with _ | ⟨f, n, le, ls⟩ | ⟨_ | _⟩
  · exact RegsFit.inv_respond h.regsFit rfl (by simp [startOf]) ho (by simp [startOf])
  · have hn := n.isLt
    exact inv_loopTest ⟨clampedRange_zero, clampedRange_zero, h.lastHeader, h.work⟩ rfl ho rfl (by simp) fun _ => by
      simp only [latchPkt_bidx, latchPkt_remain, BitVec.ofNat_eq_ofNat, BitVec.toNat_ofNat]
      omega
  · exact RegsFit.inv_emit h.regsFit rfl (.inr rfl) (Nat.zero_lt_succ _) (by simp [startOf, startEnd])
      (by simp [startOf, startEnd])
  · exact RegsFit.inv_respond h.regsFit rfl (by simp [startOf, startEnd]) ho
      (by simp [startOf, startEnd])

theorem inv_takeCmd {s : State} (h : s.Inv) (w : CmdWord) (rest : List CmdWord) : (takeCmd s w rest).Inv :=
  { h with }

theorem inv_holdReset (s : State) : (holdReset s).Inv :=
  RegsFit.inv_idle ⟨clampedRange_zero, clampedRange_zero, headerLegal_zero, workFits_cleared⟩ rfl rfl rfl

/-- Settles O14: every move of the sequencer keeps the invariant, as do reset and the start of a command. -/
theorem everyStepKeepsTheInvariant : Obligations.EveryStepKeepsTheInvariant := fun _ _ =>
  step_keeps (fun s _ => inv_holdReset s) (fun _ w rest h hp _ => startOf_keeps_inv _ (inv_takeCmd h w rest) hp)
    fun _ _ => move_keeps_inv

/-- Settles O13: reset leaves what holding reset leaves, but for the reset input. -/
theorem resetMeetsTheInvariant : Obligations.ResetMeetsTheInvariant :=
  { inv_holdReset State.reset with }

/-! ### The counters' bounds -/

theorem startOf_keeps_countersBounded (d : Option Instr) {s : State} (h : s.CountersBounded) :
    (startOf d s).CountersBounded := by
  obtain ⟨hb, hn⟩ := h
  rcases d with _ | ⟨f, n, le, ls⟩ | ⟨_ | _⟩
  · exact ⟨hb, hn⟩
  · simp [startOf, startPkt, State.CountersBounded]
  · exact ⟨hb, Nat.zero_le _⟩
  · exact ⟨hb, Nat.zero_le _⟩

/-- The end of a packet's chunk counts it, within what the invariant allows; END counts its terminator (R26, R27). -/
theorem finishChunk_keeps_countersBounded {s : State} (hinv : s.Inv) (hp : s.phase = .emit) (h : s.CountersBounded)
    (a : Accept) (ts : List Transfer) :
    (finishChunk { s with outAccept := a, trace := ts, emitOff := 0 }).CountersBounded := by
  obtain ⟨hb, hn⟩ := h
  obtain hrun | hrun := hinv.emitPhase hp
  · obtain ⟨hbidx, hnbytes⟩ := hinv.counters_succ hp hrun
    obtain ⟨hmax, -⟩ := hinv.bidx_of_emit hp hrun
    rw [finishChunk_of_pkt (by exact hrun)]
    simp only [State.CountersBounded, loopTest_bidx, loopTest_nbytes, hbidx, hnbytes]
    omega
  · rw [finishChunk_of_end (by exact hrun)]
    exact ⟨hb, by simp⟩

theorem finishCommand_keeps_countersBounded {s : State} (h : s.CountersBounded) :
    (finishCommand s).CountersBounded := by
  by_cases hrun : s.running = .endStream
  · rw [finishCommand_of_end hrun]
    exact ⟨Nat.zero_le _, Nat.zero_le _⟩
  · rwa [finishCommand_of_ne_end hrun]

theorem move_keeps_countersBounded {s t : State} (hm : Move s t) (hinv : s.Inv) (h : s.CountersBounded) :
    t.CountersBounded := by
  cases hm with
  | emitLast hp ho a ha => exact finishChunk_keeps_countersBounded hinv hp h a _
  | respond hp a ha => exact finishCommand_keeps_countersBounded (s := { s with rspAccept := a, trace := _ }) h
  | _ => exact h

/-- Settles O16: the invariant carries the bounds past the one move that counts a chunk. -/
theorem countersNeverOverflow : Obligations.CountersNeverOverflow := by
  intro s t hinv hb h
  refine (step_keeps (P := fun s => s.Inv ∧ s.CountersBounded) ?_ ?_ ?_ ⟨hinv, hb⟩ h).2
  · exact fun s _ => ⟨inv_holdReset s, by simp [State.CountersBounded]⟩
  · exact fun s w rest ⟨hinv, hb⟩ hp _ =>
      ⟨startOf_keeps_inv _ (inv_takeCmd hinv w rest) hp, startOf_keeps_countersBounded _ hb⟩
  · exact fun s t hm ⟨hinv, hb⟩ => ⟨move_keeps_inv hm hinv, move_keeps_countersBounded hm hinv hb⟩

/-! ### The chunks' alignment -/

/-- A byte pushed is one more and moves the offset by one, back to 0 after the sixteenth. -/
theorem move_keeps_chunkAligned {s t : State} (hm : Move s t) (hinv : s.Inv) (h : s.ChunkAligned) : t.ChunkAligned := by
  have hkeep : ∀ {t : State}, t.out = s.out → t.emitOff = s.emitOff → t.ChunkAligned := fun hout hoff => by
    rwa [State.ChunkAligned, hout, hoff]
  cases hm with
  | fillNone hp hr => exact hkeep rfl rfl
  | fillTake hp hr hl v rest hs => exact hkeep (by simp [out_eq]) rfl
  | fillPad hp hr hl => exact hkeep rfl rfl
  | encode hp => exact hkeep rfl (hinv.emitOffZero (by simp [hp])).symm
  | emitByte hp ho a ha =>
    simp only [State.ChunkAligned, out_eq, bytesOf_append, List.length_append] at h ⊢
    simp
    omega
  | emitLast hp ho a ha =>
    have hoff := hinv.emitOff
    simp only [State.ChunkAligned, out_eq, finishChunk_trace, finishChunk_emitOff, bytesOf_append,
      List.length_append] at h ⊢
    simp
    omega
  | drainNone hp hr => exact hkeep rfl rfl
  | drainTake hp hr v rest hs => exact hkeep (by simp [out_eq]) rfl
  | respond hp a ha => exact hkeep (by simp [out_eq]) (by simp)

/-- Starting a command pushes no byte, and the offset is 0 in IDLE. -/
theorem startOf_keeps_chunkAligned (d : Option Instr) {s : State} (hinv : s.Inv) (hp : s.phase = .idle)
    (h : s.ChunkAligned) : (startOf d s).ChunkAligned := by
  have hout : (startOf d s).out = s.out := by simp [out_eq, (startOf_transfers d s).trace]
  have hzero := hinv.emitOffZero (by simp [hp])
  have hoff : (startOf d s).emitOff = 0 := by
    rcases d with _ | ⟨f, n, le, ls⟩ | ⟨_ | _⟩ <;> simp [startOf, startPkt, startEnd, hzero]
  rw [State.ChunkAligned, hout, hoff, h, hzero]

/-- Settles O32: the invariant says that the offset is 0 where a chunk begins, and the alignment goes with it. -/
theorem chunksGoOutWhole : Obligations.ChunksGoOutWhole := by
  intro s t hinv hr ha h
  refine (step_keeps_of_released (P := fun s => s.Inv ∧ s.ChunkAligned) ?_ ?_ hr ⟨hinv, ha⟩ h).2
  · intro s w rest ⟨hinv, ha⟩ hp _
    have htake : (takeCmd s w rest).ChunkAligned := by simpa [State.ChunkAligned, out_eq] using ha
    exact ⟨startOf_keeps_inv _ (inv_takeCmd hinv w rest) hp,
      startOf_keeps_chunkAligned _ (inv_takeCmd hinv w rest) hp htake⟩
  · exact fun s t hm ⟨hinv, ha⟩ => ⟨move_keeps_inv hm hinv, move_keeps_chunkAligned hm hinv ha⟩

end Sys2Proof.Machine
end

section
/-! PROOFS. The block encoder as a whole (R147): its registers step by step, the early exit (R107), the shift table
(R111), the histories it leaves (R105, R125), and its chunk (R77, R80). -/

namespace Sys2Proof.Machine

/-! ### The registers a block leaves -/

section Registers

variable {cfg : Config} {sb : List Sample} {last : Bool} {fh1 fh2 h1 h2 : Int} {f : Bool} {ls le : LoopIdx}
  {b : BlockIdx}

/-- The quantizer runs on the residuals of the chosen index (R120). -/
theorem encodeBlock_eq_quantize :
    let e := encodeBlock cfg sb last fh1 fh2 h1 h2 f ls le b
    let qd := quantize cfg e.work.idx e.work.shift (residuals e.work.idx fh1 fh2 (clampBlock sb)) 0 h1 h2
    e.work.q = qd.q ∧ e.work.p = qd.p ∧ e.hist1 = qd.hist1 ∧ e.hist2 = qd.hist2 := by
  intro e qd
  have hqd : quantize cfg e.work.idx e.work.shift ((scanBlock (clampBlock sb) fh1 fh2).getD e.work.idx.val []) 0 h1 h2 =
      qd := by rw [scanBlock_getD]
  rw [← hqd]
  exact ⟨rfl, rfl, rfl, rfl⟩

theorem encodeBlock_q_length : (encodeBlock cfg sb last fh1 fh2 h1 h2 f ls le b).work.q.length = sb.length := by
  rw [encodeBlock_eq_quantize.1, quantize_length, residuals_length]
  exact clampBlock_length sb

end Registers

/-- Settles O39: all but the row the quantizer reads is the encoder's own definition. -/
theorem encodeBlockRunsItsSteps : Obligations.EncodeBlockRunsItsSteps :=
  fun _ _ _ _ _ _ _ _ _ _ _ =>
    ⟨rfl, rfl, rfl, rfl, rfl, ⟨rfl, rfl⟩, rfl, encodeBlock_eq_quantize, rfl, rfl, rfl, rfl⟩

/-- Settles O52: the position and the loop operands are read by the flag alone. -/
theorem flagAndSamplesDoNotMix : Obligations.FlagAndSamplesDoNotMix :=
  fun _ _ _ _ _ _ _ _ _ _ _ _ _ _ _ _ => ⟨rfl, rfl⟩

/-- Settles O40: a minimum of 7.0 or less leaves index 0, whose residuals are the samples in 64ths. -/
theorem earlyExitQuantizesTheSamplesThemselves : Obligations.EarlyExitQuantizesTheSamplesThemselves := by
  intro cfg sb last fh1 fh2 h1 h2 f ls le b e hmin
  have hidx : e.work.idx = 0 := encodeBlock_idx_of_min64_le hmin
  refine ⟨hidx, encodeBlock_eq_quantize.1.trans ?_⟩
  rw [← residuals_zero fh1 fh2, ← hidx]
  rfl

/-! ### The shift table -/

/-- The first test fires from `7 * 2 ^ k` up; a later one, with mask `2 ^ (j + 3)`, fires from `7 * 2 ^ j` up to where
the one before it does (R109, R111). -/
theorem shiftSearch_eq (nohit : Nat) {m j : Nat} (hlo : 7 * 2 ^ j ≤ m) (k : Nat) : ∀ s, j ≤ k → m < 15 * 2 ^ k →
    (j < k → m < 7 * 2 ^ (j + 1)) → shiftSearch nohit m (k + 1) (2 ^ (k + 3)) s = s + (k - j) := by
  induction k with
  | zero =>
    intro s hj hm _
    obtain rfl := Nat.le_zero.1 hj
    rw [shiftSearch_succ nohit s hm, if_pos hlo]
    rfl
  | succ k ih =>
    intro s hj hm hhi
    rw [shiftSearch_succ nohit s hm]
    obtain rfl | hlt := Nat.eq_or_lt_of_le hj
    · rw [if_pos hlo, Nat.sub_self, Nat.add_zero]
    · have hpow : 2 ^ (j + 1) ≤ 2 ^ (k + 1) := Nat.pow_le_pow_right (by decide) hlt
      have hm' := hhi hlt
      rw [if_neg (by omega), ih (s + 1) (by omega) (by omega) (fun _ => hm')]
      omega

theorem shiftOf_eq_search (cfg : Config) (m : Nat) :
    shiftOf cfg m = shiftSearch cfg.SHIFT_NOHIT (m / 64) (11 + 1) (2 ^ (11 + 3)) 0 := rfl

/-- Settles O41: each row of the table is the test that fires there; at 30720 the sum overflows the first test's bit and
the second one fires. -/
theorem shiftFollowsTheTable : Obligations.ShiftFollowsTheTable := by
  refine ⟨fun cfg m => ⟨fun h => shiftOf_of_lt_seven cfg (by omega), fun s hs1 hs2 hlo hhi => ?_, fun hlo hhi => ?_,
    fun htop => ?_⟩, fun cfg sb last fh1 fh2 h1 h2 f ls le b => ?_⟩
  · have hpow : 12 - s = 11 - s + 1 := by omega
    have htop : 2 ^ (12 - s) ≤ 2 ^ 11 := Nat.pow_le_pow_right (by decide) (by omega)
    have hpos : 0 < 2 ^ (12 - s) := Nat.two_pow_pos _
    rw [shiftOf_eq_search, shiftSearch_eq _ hlo 11 0 (by omega) (by omega) (fun _ => by rw [← hpow]; omega)]
    omega
  · rw [shiftOf_eq_search, shiftSearch_eq (j := 11) _ hlo 11 0 (by omega) (by omega) (fun h => absurd h (by decide))]
  · rw [shiftOf, htop]
    rfl
  · have hmin : (encodeBlock cfg sb last fh1 fh2 h1 h2 f ls le b).work.min64 ≤ 1966080 := encodeBlock_min64_le
    omega

/-! ### The histories -/

/-- Settles O45: the run over the two lists is the run over the second from what the first left. -/
theorem quantizerCarriesItsHistory : Obligations.QuantizerCarriesItsHistory :=
  quantize_append

theorem clampBlock_getD (sb : List Sample) (i : Nat) : (clampBlock sb).getD i 0 = clampSample (sb.getD i 0) := by
  have hzero : clampSample 0 = 0 := rfl
  rw [clampBlock, ← hzero, List.getD_map]

/-- Settles O47: the filter history is clamped samples, and the quantizer saturates its history to 40 bits. -/
theorem historiesFitTheirRegisters : Obligations.HistoriesFitTheirRegisters := by
  intro sb last fh1 fh2 h1 h2 f ls le b e
  have hclamped : ∀ i, ClampedRange ((clampBlock sb).getD i 0) := getD_range (clampBlock_range sb)
  obtain ⟨-, hh1, hh2⟩ := quantize_hist_range e.work.idx e.work.shift
    ((scanBlock (clampBlock sb) fh1.toInt fh2.toInt).getD e.work.idx.val []) (p := 0) (by decide) (toInt40_range h1)
    (toInt40_range h2)
  exact ⟨fun _ => ⟨clampBlock_getD sb 27, clampBlock_getD sb 26⟩, ofInt16_toInt (hclamped 27),
    ofInt16_toInt (hclamped 26), ofInt40_toInt hh1, ofInt40_toInt hh2⟩

/-! ### The chunk -/

/-- Settles O53: the chunk is two bytes and the packed codes, two of the 28 in each byte. -/
theorem chunksAreSixteenBytes : Obligations.ChunksAreSixteenBytes := by
  intro cfg sb last fh1 fh2 h1 h2 f ls le b hlen w
  have hpay : w.pay.length = 14 := encodeBlock_pay_length cfg hlen ..
  have hq : w.q.length = 28 := encodeBlock_q_length.trans hlen
  refine ⟨chunkBytes_length hpay, rfl, rfl, rfl, rfl, fun j hj => ?_, flagOf_legal .., hq, hpay⟩
  have hbyte : (chunkBytes w)[2 + j]? = (packCodes (w.q.map codeOf))[j]? := by
    rw [Nat.add_comm]
    rfl
  rw [hbyte, packCodes_map_codeOf_getElem? (by omega)]

end Sys2Proof.Machine
end

section
/-! PROOFS. END (R170 to R172): the terminator as far as the host accepts it, and the response with the stream state put
back. -/

namespace Sys2Proof.Machine

theorem terminatorBytes_length (h : Byte) : (terminatorBytes h).length = 16 := rfl

theorem emitBytes_of_end {s : State} (h : s.running = .endStream) : emitBytes s = terminatorBytes s.lastHeader := by
  simp [emitBytes, h]

/-- RESPOND of an END, where the host accepts the response: the byte count is pushed and the stream state restored (R75,
R172). -/
theorem run_respond_of_end {s : State} {a : Accept} (hp : s.phase = .respond) (hrun : s.running = .endStream)
    (ha : s.rspAccept.take = some a) : runToWait s =
      reinitStream { s with
        phase := .idle, running := .nothing, rspAccept := a, trace := s.trace ++ [.rsp (0#1 ++ s.nbytes)] } := by
  have hword : responseWord s = 0#1 ++ s.nbytes := by simp [responseWord, hrun]
  rw [run_respond hp ha, finishCommand_of_end (by exact hrun), hword]

/-- Settles O27: END 1 starts in RESPOND with NBYTES 0. -/
theorem endOfALoopEmitsNothing : Obligations.EndOfALoopEmitsNothing := by
  intro s a ha
  have hzero : (0x00000000 : RspWord) = 0#1 ++ 0#31 := by decide
  rw [exec_eq, run_respond_of_end (s := startOf (some (.endStream true)) s) rfl rfl ha, hzero]
  rfl

/-- EMIT of the terminator, where the host accepts every byte: NBYTES, and the response next (R170, R171). -/
theorem emit_chunk_of_end {s : State} {c : Accept} (hp : s.phase = .emit) (ho : s.emitOff = 0)
    (hrun : s.running = .endStream) (hout : AcceptsThen s.outAccept 16 c) : runToWait s =
      runToWait { s with
        nbytes := 16, phase := .respond, outAccept := c
        trace := s.trace ++ (terminatorBytes s.lastHeader).map .byte } := by
  have hbytes := emitBytes_of_end hrun
  have hlen : (emitBytes s).length = 16 := by rw [hbytes, terminatorBytes_length]
  rw [emit_chunk hp ho hlen hout, finishChunk_of_end (by exact hrun), hbytes, ← ho]

/-- Settles O26: END 0 starts in EMIT, pushes its whole chunk, and responds with NBYTES 16. -/
theorem endEmitsTheTerminator : Obligations.EndEmitsTheTerminator := by
  intro s a c hout ha
  have hsixteen : (0x00000010 : RspWord) = 0#1 ++ 16#31 := by decide
  rw [exec_eq, emit_chunk_of_end (s := startOf (some (.endStream false)) s) rfl rfl rfl hout,
    run_respond_of_end (by rfl) (by rfl) (by exact ha), hsixteen]
  rfl

/-- Settles O28: END 0 pushes the bytes the host accepts, and with none accepted any more it waits. -/
theorem endPushesWhatTheHostAccepts : Obligations.EndPushesWhatTheHostAccepts := by
  intro s k hk hout
  have hstart := emitBytes_of_end (s := startOf (some (.endStream false)) s) rfl
  have haccept : AcceptsThen s.outAccept k (.upTo 0) := .inr ⟨0, by rw [hout, Nat.zero_add], rfl⟩
  rw [exec_eq, emit_run k (s := startOf (some (.endStream false)) s) rfl (by simpa [startOf, startEnd] using hk)
    (by rw [hstart, terminatorBytes_length]) haccept, hstart,
    runToWait_of_fault (f := .waitOut) ((tick_eq_fault_iff _ _).2 (.inl ⟨rfl, rfl⟩))]
  simp [startOf, startEnd, latchEnd, terminatorBytes, flagPlaybackEnd]

end Sys2Proof.Machine
end

section
/-! PROOFS. A step in IDLE (R71, R200), reset (R34, R220, R221), and the moves of the host (R20). -/

namespace Sys2Proof.Machine

/-! ### A step in IDLE -/

/-- Settles O6: the word is taken, decoded, and its command started and run. -/
theorem stepRunsTheDecodedCommand : Obligations.StepRunsTheDecodedCommand := by
  intro s w rest i hr hp hcmd hdec
  rw [step_of_cmd hr hp hcmd, hdec, exec_eq]

/-- Settles O8: the exception leads to RESPOND, where the core waits, and the response is all that is left. -/
theorem illegalWordWaitsToBeAnswered : Obligations.IllegalWordWaitsToBeAnswered := by
  intro s w rest hinv hr hp hcmd hdec hrsp t
  have hnothing : s.running = .nothing := hinv.running.1 hp
  have hwait : tick t = .fault .waitRsp := (tick_eq_fault_iff _ _).2 (.inl ⟨rfl, hrsp⟩)
  refine ⟨?_, step_of_fault hr (by simp [t]) hwait, ?_⟩
  · rw [step_of_cmd hr hp hcmd, hdec]
    exact congrArg Host.Outcome.next (runToWait_of_fault hwait)
  · have hmove := Move.respond (s := { t with rspAccept := .upTo 1 }) rfl (.upTo 0) rfl
    rw [step_of_move (by exact hr) (by simp [t]) hmove, run_respond_of_illegal rfl rfl rfl]
    simp [t, hp, hnothing, hrsp]

/-! ### Reset -/

/-- Settles O11: the table of R34, field by field. -/
theorem resetLeavesTheValuesOfTheTable : Obligations.ResetLeavesTheValuesOfTheTable :=
  ⟨rfl, rfl, rfl, rfl, rfl, rfl, rfl, rfl, rfl, rfl, rfl, rfl, rfl, rfl, rfl⟩

/-- Settles O12: holding reset keeps the host's side and the transfers alone, and holding it again changes nothing. -/
theorem resetAbandonsTheCommand : Obligations.ResetAbandonsTheCommand :=
  ⟨fun _ => ⟨rfl, rfl, rfl, rfl, step_of_reset rfl⟩,
    fun _ hr => ⟨⟨_, step_of_reset hr, rfl, rfl, rfl, rfl⟩, releaseReset_of_asserted hr⟩⟩

/-! ### The host -/

theorem inv_releaseReset {s : State} (h : s.Inv) : (releaseReset s).Inv := by
  cases hr : s.resetIn with
  | true =>
    rw [releaseReset_of_asserted hr]
    exact { inv_holdReset s with }
  | false => rwa [releaseReset_of_released hr]

/-- The invariant speaks of no channel. -/
theorem host_keeps_inv {s : State} (h : s.Inv) (m : HostMove) : (s.host m).Inv := by
  match m with
  | .offerCmd _ | .offerSamples _ | .acceptOut _ | .acceptRsp _ => exact { h with }
  | .driveReset true => exact inv_holdReset s
  | .driveReset false => exact inv_releaseReset h

/-- Settles O15: every move of the host but driving reset writes one channel. -/
theorem theHostReachesNoRegister : Obligations.TheHostReachesNoRegister := by
  refine fun s m => ⟨fun h => host_keeps_inv h m, fun hm => ?_, releaseReset_of_released⟩
  cases m with
  | driveReset b => exact absurd rfl (hm b)
  | _ => rfl

end Sys2Proof.Machine
end

section
/-! PROOFS. PKT: its pseudocode (R160), its first wait (R161), the samples it takes (R55, R167, R223), what it leaves
alone (R24, R61, R166), and LAST_HEADER after it (R166, R171). -/

namespace Sys2Proof.Machine

/-- Settles O17: the sequencer runs the loops of the pseudocode. -/
theorem pktRunsThePseudocode : Obligations.PktRunsThePseudocode :=
  fun f _ le ls _ _ _ hs hn hout hrsp => exec_pkt_eq_packetResult f le ls hs hn hout hrsp

/-- With samples to take the loop tests lead to FILL (R160). -/
theorem startPkt_of_ne_zero (f : Bool) {n : SampleCount} (le ls : LoopIdx) (s : State) (hn : n ≠ 0) :
    startPkt f n le ls s =
      { s with
        phase := .fill, running := .pkt, loopFlag := f, loopStart := ls, loopEnd := le, remain := n, bidx := 0
        nbytes := 0, fh1 := 0, fh2 := 0, hist1 := 0, hist2 := 0, stop := false, work := { s.work with sb := [] } } := by
  obtain ⟨hr, -⟩ | ⟨-, hstop, -⟩ | ⟨-, -, e⟩ := loopTest_cases (latchPkt f n le ls s)
  · exact absurd hr hn
  · simp at hstop
  · exact e

/-- Settles O19: FILL is where the packet starts, and its first sample is not offered. -/
theorem pktZeroesBothHistoriesFirst : Obligations.PktZeroesBothHistoriesFirst := by
  intro f n le ls s hn hs
  have hpos : 0 < min n.toNat 28 := blockTake_pos (s := latchPkt f n le ls s) hn
  rw [exec_eq, startOf, startPkt_of_ne_zero f le ls s hn]
  refine congrArg _ (runToWait_of_fault (f := .waitSample) ?_)
  exact (tick_eq_fault_iff _ _).2 (.inl ⟨hs, .inl ⟨rfl, hpos⟩⟩)

/-! ### The samples of a packet -/

/-- The samples the packet in progress has still to take: in FILL the block's are counted in `SB`, not yet in REMAIN. -/
def samplesLeft (s : State) : Nat :=
  match s.phase with
  | .idle | .respond => 0
  | .fill => s.remain.toNat - s.work.sb.length
  | .encode | .emit | .drain => s.remain.toNat

/-- A PKT is in progress, or answered, with what FILL needs of its block. -/
structure InPacket (s : State) : Prop where
  running : s.running = .pkt ∨ s.phase = .idle
  sb : s.phase = .fill → s.work.sb.length ≤ blockTake s

theorem samplesLeft_loopTest (s : State) : samplesLeft (loopTest s) = s.remain.toNat := by
  obtain ⟨hr, e⟩ | ⟨-, -, e⟩ | ⟨-, -, e⟩ := loopTest_cases s
  · simp [e, samplesLeft, hr]
  · simp [e, samplesLeft]
  · simp [e, samplesLeft]

theorem inPacket_loopTest {s : State} (h : s.running = .pkt) : InPacket (loopTest s) := by
  refine ⟨.inl (by simp [h]), ?_⟩
  obtain ⟨-, e⟩ | ⟨-, -, e⟩ | ⟨-, -, e⟩ := loopTest_cases s <;> simp [e]

theorem InPacket.pkt {s : State} (h : InPacket s) (hp : s.phase ≠ .idle) : s.running = .pkt :=
  h.running.resolve_right hp

/-- A move inside a packet leads to a state of the packet. -/
theorem move_inPacket {s t : State} (hm : Move s t) (h : InPacket s) : InPacket t := by
  cases hm with
  | fillNone hp hr => exact ⟨.inl (h.pkt (by simp [hp])), by simp⟩
  | fillTake hp hr hl v rest hs =>
    exact ⟨.inl (h.pkt (by simp [hp])), fun _ => by rw [List.length_append]; exact hl⟩
  | fillPad hp hr hl => exact ⟨.inl (h.pkt (by simp [hp])), by simp⟩
  | encode hp => exact ⟨.inl (h.pkt (by simp [hp])), by simp⟩
  | emitByte hp ho a ha => exact ⟨.inl (h.pkt (by simp [hp])), by simp [hp]⟩
  | emitLast hp ho a ha =>
    have hrun := h.pkt (by simp [hp])
    rw [finishChunk_of_pkt (by exact hrun)]
    exact inPacket_loopTest hrun
  | drainNone hp hr => exact ⟨.inl (h.pkt (by simp [hp])), by simp⟩
  | drainTake hp hr v rest hs => exact ⟨.inl (h.pkt (by simp [hp])), by simp [hp]⟩
  | respond hp a ha => exact ⟨.inr (by simp), by simp⟩

/-- A sample taken is one fewer to take, and nothing else changes their number (R160, R163, R167). -/
theorem move_samplesLeft {s t : State} (hm : Move s t) (h : InPacket s) :
    t.taken.length + samplesLeft t = s.taken.length + samplesLeft s := by
  cases hm with
  | fillNone hp hr => simp [samplesLeft, hp, hr, taken_eq]
  | fillTake hp hr hl v rest hs =>
    have hle : blockTake s ≤ s.remain.toNat := Nat.min_le_left ..
    simp only [samplesLeft, hp, taken_eq, samplesOf_append, samplesOf_sample, samplesOf_nil, List.length_append,
      List.length_singleton]
    omega
  | fillPad hp hr hl =>
    have hsb := h.sb hp
    simp only [samplesLeft, hp, taken_eq, padBlock_phase, padBlock_trace, padBlock_remain_toNat]
    omega
  | encode hp => simp [samplesLeft, hp, taken_eq]
  | emitByte hp ho a ha => simp [samplesLeft, hp, taken_eq]
  | emitLast hp ho a ha =>
    rw [finishChunk_of_pkt (by exact h.pkt (by simp [hp])), samplesLeft_loopTest]
    simp [samplesLeft, hp, taken_eq]
  | drainNone hp hr => simp [samplesLeft, hp, hr, taken_eq]
  | drainTake hp hr v rest hs =>
    have hsub := sub_one_toNat hr
    have hpos : s.remain.toNat ≠ 0 := fun h0 => hr (BitVec.eq_of_toNat_eq (by simpa using h0))
    simp only [samplesLeft, hp, taken_eq, samplesOf_append, samplesOf_sample, samplesOf_nil, List.length_append,
      List.length_singleton, hsub]
    omega
  | respond hp a ha => simp [samplesLeft, hp, taken_eq]

/-- What PKT has taken when its run ends, and what it has still to take, is its `nsamples` samples. -/
theorem run_pkt_samples (f : Bool) (n : SampleCount) (le ls : LoopIdx) (s : State) :
    let t := runToWait (startOf (some (.pkt f n le ls)) s)
    t.taken.length + samplesLeft t = s.taken.length + n.toNat := by
  have hstart : (startOf (some (.pkt f n le ls)) s).taken.length + samplesLeft (startOf (some (.pkt f n le ls)) s) =
      s.taken.length + n.toNat := by
    simp [startOf, startPkt, samplesLeft_loopTest, taken_eq]
  exact (runToWait_keeps (P := fun u => InPacket u ∧ u.taken.length + samplesLeft u = s.taken.length + n.toNat)
    (fun _ _ hm ⟨hin, hleft⟩ => ⟨move_inPacket hm hin, (move_samplesLeft hm hin).trans hleft⟩)
    ⟨inPacket_loopTest rfl, hstart⟩).2

/-- A host that accepts every byte holds a run up only for a sample, or in RESPOND; else the command is answered. -/
theorem run_waits_of_accepting {s : State} (h : (runToWait s).outAccept = .always) :
    (runToWait s).Waits .waitSample ∨ samplesLeft (runToWait s) = 0 := by
  obtain hidle | ⟨f, hf⟩ := runToWait_idle_or_waits s
  · exact .inr (by simp [samplesLeft, hidle])
  · cases f with
    | waitCmd => exact .inr (by simp [samplesLeft, hf.1])
    | waitSample => exact .inl hf
    | waitOut => cases h.symm.trans hf.2
    | waitRsp => exact .inr (by simp [samplesLeft, hf.1])

/-- Settles O22: the samples taken are those offered first, and the run ends with none left to take or none offered. -/
theorem pktTakesExactlyItsSamples : Obligations.PktTakesExactlyItsSamples := by
  intro f n le ls s hout
  obtain ⟨ts, hts⟩ := command_transfers (some (.pkt f n le ls)) s
  have hleft := run_pkt_samples f n le ls s
  have haccept := run_waits_of_accepting (hts.out.1 hout)
  refine ⟨_, exec_eq .., ?_⟩
  generalize runToWait (startOf (some (.pkt f n le ls)) s) = t at hts hleft haccept ⊢
  have htaken := taken_append hts.trace
  have hsmp := hts.smp
  have hlen := congrArg List.length hsmp
  simp only [htaken, List.length_append] at hleft hlen
  obtain hwait | hzero := haccept
  · have hnone : t.smp = [] := hwait.1
    rw [hnone, List.append_nil] at hsmp
    refine ⟨?_, ?_, fun _ => (step_eq_fault_iff rfl _).2 hwait⟩
    · rw [hnone, List.drop_of_length_le (by rw [hsmp]; omega)]
    · rw [htaken, List.take_of_length_le (by rw [hsmp]; omega), hsmp]
  · have hall : (samplesOf ts).length = n.toNat := by omega
    refine ⟨?_, ?_, fun hfew => absurd hfew (by omega)⟩
    · rw [hsmp, ← hall, List.drop_left]
    · rw [htaken, hsmp, ← hall, List.take_left]

/-! ### What a packet leaves alone -/

/-- The bytes of the chunk in progress that have been pushed. -/
def chunkPushed (s : State) : Nat :=
  if s.phase = .emit then s.emitOff else 0

theorem chunkPushed_of_emit {s : State} (h : s.phase = .emit) : chunkPushed s = s.emitOff := if_pos h

theorem chunkPushed_of_ne_emit {s : State} (h : s.phase ≠ .emit) : chunkPushed s = 0 := if_neg h

theorem loopTest_phase_ne_emit (s : State) : (loopTest s).phase ≠ .emit := by
  obtain ⟨-, e⟩ | ⟨-, -, e⟩ | ⟨-, -, e⟩ := loopTest_cases s <;> simp [e]

/-- The state `t` is one of a packet with the given loop operands begun in `s`: they stand in their registers, and until
a whole chunk has been pushed LAST_HEADER stands too (R24, R166). -/
structure PacketFrame (f : Bool) (le ls : LoopIdx) (s t : State) : Prop where
  loopFlag : t.loopFlag = f
  loopStart : t.loopStart = ls
  loopEnd : t.loopEnd = le
  header : s.out.length + 16 ≤ t.out.length ∨
    t.lastHeader = s.lastHeader ∧ t.out.length = s.out.length + chunkPushed t

section Frame

variable {f : Bool} {le ls : LoopIdx} {s t u : State}

/-- A move that pushes no byte, outside a chunk, keeps the frame. -/
theorem PacketFrame.of_no_byte (h : PacketFrame f le ls s t) (hloop : (u.loopFlag, u.loopStart, u.loopEnd) =
    (t.loopFlag, t.loopStart, t.loopEnd)) (hout : u.out = t.out) (hhead : u.lastHeader = t.lastHeader)
    (hpushed : chunkPushed u = chunkPushed t) : PacketFrame f le ls s u := by
  simp only [Prod.mk.injEq] at hloop
  obtain ⟨h1, h2, h3⟩ := hloop
  exact ⟨h1.trans h.loopFlag, h2.trans h.loopStart, h3.trans h.loopEnd, by rw [hout, hhead, hpushed]; exact h.header⟩

theorem move_packetFrame (hm : Move t u) (hin : InPacket t) (h : PacketFrame f le ls s t) :
    PacketFrame f le ls s u := by
  cases hm with
  | fillNone hp hr => exact h.of_no_byte rfl rfl rfl (by simp [chunkPushed, hp])
  | fillTake hp hr hl v rest hs => exact h.of_no_byte rfl (by simp [out_eq]) rfl (by simp [chunkPushed, hp])
  | fillPad hp hr hl => exact h.of_no_byte rfl rfl rfl (by simp [chunkPushed, hp])
  | encode hp => exact h.of_no_byte rfl rfl rfl (by simp [chunkPushed, hp])
  | emitByte hp ho a ha =>
    refine ⟨h.loopFlag, h.loopStart, h.loopEnd, ?_⟩
    obtain hwhole | ⟨hhead, hlen⟩ := h.header
    · exact .inl (by simp only [out_eq, bytesOf_append, List.length_append] at hwhole ⊢; omega)
    · refine .inr ⟨hhead, ?_⟩
      rw [chunkPushed_of_emit hp] at hlen
      rw [chunkPushed_of_emit (by exact hp)]
      simp only [out_eq, bytesOf_append, bytesOf_byte, bytesOf_nil, List.length_append, List.length_singleton] at hlen ⊢
      omega
  | emitLast hp ho a ha =>
    refine ⟨by simp [h.loopFlag], by simp [h.loopStart], by simp [h.loopEnd], .inl ?_⟩
    have hheader := h.header
    rw [chunkPushed_of_emit hp] at hheader
    simp only [out_eq, finishChunk_trace, bytesOf_append, bytesOf_byte, bytesOf_nil, List.length_append,
      List.length_singleton] at hheader ⊢
    omega
  | drainNone hp hr => exact h.of_no_byte rfl rfl rfl (by simp [chunkPushed, hp])
  | drainTake hp hr v rest hs => exact h.of_no_byte rfl (by simp [out_eq]) rfl (by simp [chunkPushed, hp])
  | respond hp a ha =>
    have hrun := hin.pkt (by simp [hp])
    rw [finishCommand_of_ne_end (by simp [hrun])]
    exact h.of_no_byte rfl (by simp [out_eq]) rfl (by simp [chunkPushed, hp])

end Frame

theorem startOf_packetFrame (f : Bool) (n : SampleCount) (le ls : LoopIdx) (s : State) :
    PacketFrame f le ls s (startOf (some (.pkt f n le ls)) s) := by
  have hpushed : chunkPushed (startOf (some (.pkt f n le ls)) s) = 0 :=
    chunkPushed_of_ne_emit (loopTest_phase_ne_emit _)
  have hout : (startOf (some (.pkt f n le ls)) s).out = s.out := by simp [startOf, startPkt, out_eq]
  exact ⟨loopTest_loopFlag _, loopTest_loopStart _, loopTest_loopEnd _,
    .inr ⟨loopTest_lastHeader _, by rw [hpushed, hout, Nat.add_zero]⟩⟩

/-- Every move of a packet keeps it within its frame. -/
theorem move_packet {f : Bool} {le ls : LoopIdx} {s t u : State} (hm : Move t u)
    (h : InPacket t ∧ PacketFrame f le ls s t) : InPacket u ∧ PacketFrame f le ls s u :=
  ⟨move_inPacket hm h.1, move_packetFrame hm h.1 h.2⟩

theorem run_pkt_packetFrame (f : Bool) (n : SampleCount) (le ls : LoopIdx) (s : State) :
    PacketFrame f le ls s (runToWait (startOf (some (.pkt f n le ls)) s)) :=
  (runToWait_keeps (fun _ _ => move_packet) ⟨inPacket_loopTest rfl, startOf_packetFrame f n le ls s⟩).2

/-- Settles O25: the channels are as the transfers of the run leave them, the registers as the packet's frame says. -/
theorem pktChangesOnlyItsRegisters : Obligations.PktChangesOnlyItsRegisters := by
  intro f n le ls s
  obtain ⟨ts, hts⟩ := command_transfers (some (.pkt f n le ls)) s
  have hframe := run_pkt_packetFrame f n le ls s
  refine ⟨_, ts, exec_eq .., hts.cmd, hts.resetIn, hframe.loopFlag, hframe.loopStart, hframe.loopEnd, hts.trace,
    hts.noCmd, hts.smp, hts.out, hts.rsp, fun hfew => ?_⟩
  have hheader := hframe.header
  rw [out_append hts.trace, List.length_append] at hheader
  obtain hwhole | ⟨hsame, -⟩ := hheader
  · omega
  · exact hsame

/-! ### LAST_HEADER after a packet -/

/-- LAST_HEADER is the header byte of the chunk pushed last. -/
def LastChunkHeader (s : State) : Prop :=
  ∃ before w, s.out = before ++ chunkBytes w ∧ w.pay.length = 14 ∧ s.lastHeader = w.hdr

theorem lastChunkHeader_packetBlock (xs : List Sample) (s : State) : LastChunkHeader (packetBlock xs s) :=
  ⟨_, _, packetBlock_out xs s, encodeBlock_pay_length Config.hw (blockSamples_length xs) .., rfl⟩

theorem LastChunkHeader.of_out_eq {s t : State} (h : LastChunkHeader s) (hout : t.out = s.out)
    (hhead : t.lastHeader = s.lastHeader) : LastChunkHeader t := by
  obtain ⟨before, w, hs, hpay, hhdr⟩ := h
  exact ⟨before, w, hout.trans hs, hpay, hhead.trans hhdr⟩

/-- The pseudocode's loops end with the header of the last turn's chunk, where there is or was a turn (R166). -/
theorem lastChunkHeader_packetLoop (k : Nat) : ∀ {xs : List Sample} {s : State},
    k ≠ 0 ∧ xs ≠ [] ∨ LastChunkHeader s → LastChunkHeader (packetLoop k xs s) := by
  induction k with
  | zero => exact fun h => h.resolve_left fun ⟨hk, _⟩ => hk rfl
  | succ k ih =>
    intro xs s h
    by_cases hne : xs = []
    · subst hne
      rw [packetLoop_nil]
      exact h.resolve_left fun ⟨_, hxs⟩ => hxs rfl
    · have hturn := lastChunkHeader_packetBlock xs s
      cases hstop : (packetBlock xs s).stop with
      | true =>
        rw [packetLoop_of_stop k hne hstop]
        refine hturn.of_out_eq ?_ rfl
        rw [out_append (s := packetBlock xs s) rfl, bytesOf_map_sample, List.append_nil]
      | false =>
        rw [packetLoop_of_not_stop k hne hstop]
        exact ih (.inr hturn)

/-- After PKT with samples, all offered, and a host that accepts everything, LAST_HEADER is its last chunk's (R166). -/
theorem lastChunkHeader_packetResult (f : Bool) (le ls : LoopIdx) {xs rest : List Sample} (s : State) (hne : xs ≠ []) :
    LastChunkHeader (packetResult f le ls xs rest s) := by
  have hloop := lastChunkHeader_packetLoop xs.length (xs := xs)
    (s := latchPkt f (BitVec.ofNat 24 xs.length) le ls s) (.inl ⟨by simpa using hne, hne⟩)
  refine hloop.of_out_eq ?_ rfl
  rw [out_append (s := packetLoop ..) rfl, bytesOf_rsp, bytesOf_nil, List.append_nil]

theorem LastChunkHeader.getElem? {s : State} (h : LastChunkHeader s) :
    s.out[s.out.length - 16]? = some s.lastHeader := by
  obtain ⟨before, w, hout, hpay, hhdr⟩ := h
  have hlen : before.length + (chunkBytes w).length - 16 = before.length := by
    rw [chunkBytes_length hpay, Nat.add_sub_cancel]
  rw [hout, hhdr, List.length_append, hlen, List.getElem?_append_right (Nat.le_refl _), Nat.sub_self]
  rfl

/-- Settles O24: the packet leaves the header of its last chunk in LAST_HEADER, with which END's terminator begins. -/
theorem terminatorRepeatsTheLastHeader : Obligations.TerminatorRepeatsTheLastHeader := by
  intro f n le ls s hn hlen hout hrsp
  have htake : (s.smp.take n.toNat).length = n.toNat := List.length_take_of_le hlen
  have hne : s.smp.take n.toNat ≠ [] := fun h0 => hn (BitVec.eq_of_toNat_eq (by rw [← htake, h0]; rfl))
  have hpkt := exec_pkt_eq_packetResult f le ls (List.take_append_drop n.toNat s.smp).symm htake hout hrsp
  have hlast := lastChunkHeader_packetResult f le ls (rest := s.smp.drop n.toNat) s hne
  obtain ⟨ts, hts⟩ := command_transfers (some (.pkt f n le ls)) s
  rw [exec_eq, Host.Outcome.next.injEq] at hpkt
  rw [hpkt] at hts
  generalize packetResult f le ls (s.smp.take n.toNat) (s.smp.drop n.toNat) s = t at hpkt hlast hts
  have hrsp' : t.rspAccept.take = some .always := by rw [hts.rsp.1 hrsp, take_always]
  have hend := endEmitsTheTerminator t .always .always (.inl ⟨hts.out.1 hout, rfl⟩) hrsp'
  refine ⟨t, _, t.lastHeader, by rw [exec_eq, hpkt], hend, rfl, hlast.getElem?, ?_⟩
  rw [out_append (s := t) (List.append_assoc ..), bytesOf_append, bytesOf_map_byte, bytesOf_rsp, bytesOf_nil,
    List.append_nil]

end Sys2Proof.Machine
end

section
/-! PROOFS. What the host does later makes no difference (R224, R225): a host that accepts more, or offers more samples,
commutes with every move of the sequencer, so a run may be helped on at its end instead of at its start. -/

namespace Sys2Proof.Machine

/-! ### Runs of two machines -/

/-- A change of the state that every move commutes with, where `P` holds, may be made after a run instead of before. -/
theorem run_commutes {P : State → Prop} {g : State → State} (keep : ∀ s t, Move s t → P s → P t)
    (move : ∀ s t, P s → Move s t → Move (g s) (g t)) (s : State) :
    P s → runToWait (g s) = runToWait (g (runToWait s)) := by
  induction s using run_induction with
  | stop s f h => exact fun _ => by rw [runToWait_of_fault h]
  | move s t h ih =>
    intro hP
    rw [runToWait_of_move (move s t hP h), runToWait_of_move h]
    exact ih (keep s t h hP)

/-- A change of the channels that the core's moves commute with: the host helps the core on. -/
structure Helps (g : State → State) : Prop where
  resetIn : ∀ s, (g s).resetIn = s.resetIn
  phase : ∀ s, (g s).phase = s.phase
  cmd : ∀ s, (g s).cmd = s.cmd
  take : ∀ s w rest, takeCmd (g s) w rest = g (takeCmd s w rest)
  start : ∀ d s, startOf d (g s) = g (startOf d s)
  move : ∀ {s t}, Move s t → Move (g s) (g t)

section Help

variable {g : State → State} {s t : State}

theorem step_resetIn (hr : s.resetIn = false) (h : step s = .next t) : t.resetIn = false :=
  step_keeps_of_released (P := fun u => u.resetIn = false)
    (fun s w rest hs _ _ => (startOf_transfers (decode w) (takeCmd s w rest)).resetIn.trans hs)
    (fun _ _ hm hs => (move_transfers hm).elim fun _ hts => hts.resetIn.trans hs) hr hr h

/-- The step of a core that is helped on is the step of the core, helped on and run to its end. -/
theorem Helps.step (hg : Helps g) (hr : s.resetIn = false) (h : step s = .next t) :
    Machine.step (g s) = .next (runToWait (g t)) := by
  have hrun : ∀ u, runToWait (g u) = runToWait (g (runToWait u)) := fun u =>
    run_commutes (P := fun _ => True) (fun _ _ _ _ => trivial) (fun _ _ _ hm => hg.move hm) u trivial
  have hr' : (g s).resetIn = false := by rw [hg.resetIn, hr]
  obtain ⟨hp, w, rest, hcmd, rfl⟩ | ⟨hp, ⟨u, hu⟩, rfl⟩ := step_cases_of_released hr h
  · rw [step_of_cmd hr' (by rw [hg.phase, hp]) (by rw [hg.cmd, hcmd]), hg.take, hg.start, hrun]
  · rw [step_of_move hr' (by rwa [hg.phase]) (hg.move hu), hrun]

/-- Where the help lets the core go on, its next step ends where the step of a core helped at once ends. -/
theorem Helps.step_again (hg : Helps g) (hr : s.resetIn = false) (h : Machine.step s = .next t) (hp : t.phase ≠ .idle)
    (hm : ∃ u, Move (g t) u) : Machine.step (g t) = Machine.step (g s) := by
  obtain ⟨u, hu⟩ := hm
  rw [hg.step hr h, step_of_move (by rw [hg.resetIn, step_resetIn hr h]) (by rwa [hg.phase]) hu]

/-- Where the help leaves the core waiting, it might have come before the step. -/
theorem Helps.step_same (hg : Helps g) (hr : s.resetIn = false) (h : Machine.step s = .next t)
    (hm : ∃ f, tick (g t) = .fault f) : Machine.step (g s) = .next (g t) := by
  obtain ⟨f, hf⟩ := hm
  rw [hg.step hr h, runToWait_of_fault hf]

end Help

/-! ### The channels and the registers -/

/-- The state with other samples offered and other acceptances: what only the host changes. -/
def withHost (vs : List Sample) (a b : Accept) (s : State) : State :=
  { s with smp := vs, outAccept := a, rspAccept := b }

section Channels

variable (vs : List Sample) (a b : Accept) (s : State)

theorem loopTest_withHost : loopTest (withHost vs a b s) = withHost vs a b (loopTest s) := by
  obtain ⟨hr, -⟩ | ⟨hr, hs, -⟩ | ⟨hr, hs, -⟩ := loopTest_cases s
  · simp [loopTest, withHost, hr]
  · simp [loopTest, withHost, hr, hs]
  · simp [loopTest, withHost, hr, hs]

theorem finishChunk_withHost : finishChunk (withHost vs a b s) = withHost vs a b (finishChunk s) := by
  cases hrun : s.running with
  | pkt =>
    rw [finishChunk_of_pkt hrun, finishChunk_of_pkt (by exact hrun), ← loopTest_withHost]
    rfl
  | _ => simp [finishChunk, withHost, hrun]

theorem finishCommand_withHost : finishCommand (withHost vs a b s) = withHost vs a b (finishCommand s) := by
  by_cases hrun : s.running = .endStream
  · rw [finishCommand_of_end hrun, finishCommand_of_end (by exact hrun)]
    rfl
  · rw [finishCommand_of_ne_end hrun, finishCommand_of_ne_end (by exact hrun)]
    rfl

theorem startOf_withHost (d : Option Instr) : startOf d (withHost vs a b s) = withHost vs a b (startOf d s) := by
  rcases d with _ | ⟨f, n, le, ls⟩ | ⟨_ | _⟩
  · rfl
  · exact loopTest_withHost vs a b (latchPkt f n le ls s)
  · rfl
  · rfl

end Channels

/-! ### A host that accepts everything -/

/-- The state of a host that accepts everything from now on (R225). -/
def accepting (s : State) : State :=
  withHost s.smp .always .always s

theorem finishChunk_accepting (s : State) : finishChunk (accepting s) = accepting (finishChunk s) := by
  simp only [accepting, finishChunk_withHost, finishChunk_smp]

theorem finishCommand_accepting (s : State) : finishCommand (accepting s) = accepting (finishCommand s) := by
  simp only [accepting, finishCommand_withHost, finishCommand_smp]

theorem move_accepting {s t : State} (hm : Move s t) : Move (accepting s) (accepting t) := by
  cases hm with
  | fillNone hp hr => exact .fillNone hp hr
  | fillTake hp hr hl v rest hs => exact .fillTake (s := accepting s) hp hr hl v rest hs
  | fillPad hp hr hl => exact .fillPad (s := accepting s) hp hr hl
  | encode hp => exact .encode (s := accepting s) hp
  | emitByte hp ho a ha => exact .emitByte (s := accepting s) hp ho .always rfl
  | emitLast hp ho a ha =>
    rw [← finishChunk_accepting]
    exact .emitLast (s := accepting s) hp ho .always rfl
  | drainNone hp hr => exact .drainNone hp hr
  | drainTake hp hr v rest hs => exact .drainTake (s := accepting s) hp hr v rest hs
  | respond hp a ha =>
    rw [← finishCommand_accepting]
    exact .respond (s := accepting s) hp .always rfl

theorem helps_accepting : Helps accepting where
  resetIn _ := rfl
  phase _ := rfl
  cmd _ := rfl
  take _ _ _ := rfl
  start d s := by
    rw [accepting, startOf_withHost, accepting, (startOf_channels d s).2.1]
  move := move_accepting

/-- A host that accepts everything lets EMIT and RESPOND go on. -/
theorem exists_move_accepting {t : State} (hp : t.phase = .emit ∨ t.phase = .respond) : ∃ u, Move (accepting t) u := by
  obtain hp | hp := hp
  · by_cases ho : t.emitOff + 1 < 16
    · exact ⟨_, .emitByte (s := accepting t) hp ho .always rfl⟩
    · exact ⟨_, .emitLast (s := accepting t) hp ho .always rfl⟩
  · exact ⟨_, .respond (s := accepting t) hp .always rfl⟩

/-- In the other phases the acceptance is not what the core waits for. -/
theorem exists_fault_accepting {t : State} (hp : ¬ (t.phase = .emit ∨ t.phase = .respond))
    (h : t.phase = .idle ∨ ∃ f, t.Waits f) : ∃ f, tick (accepting t) = .fault f := by
  obtain hidle | ⟨f, hf⟩ := h
  · exact ⟨.waitCmd, (tick_eq_fault_iff ..).2 (.inr ⟨hidle, rfl⟩)⟩
  · refine ⟨f, (tick_eq_fault_iff ..).2 (.inl ?_)⟩
    cases f with
    | waitCmd => exact hf
    | waitSample => exact hf
    | waitOut => exact absurd (.inl hf.1) hp
    | waitRsp => exact absurd (.inr hf.1) hp

/-- Settles O33: accepting everything commutes with the moves, and lets exactly EMIT and RESPOND go on. -/
theorem backPressureNeverChangesTheBytes : Obligations.BackPressureNeverChangesTheBytes := by
  intro s t a b hr h
  refine ⟨fun hp => ?_, fun hp => ?_⟩
  · exact helps_accepting.step_again (s := withHost s.smp a b s) hr h (by rcases hp with hp | hp <;> simp [hp])
      (exists_move_accepting hp)
  · exact helps_accepting.step_same (s := withHost s.smp a b s) hr h
      (exists_fault_accepting hp (everyStepRunsToIdleOrToTheHost (withHost s.smp a b s) t hr h))

/-! ### A host that offers more samples -/

/-- The state with more samples offered (R224). -/
def offering (vs : List Sample) (s : State) : State :=
  withHost (s.smp ++ vs) s.outAccept s.rspAccept s

section Offer

variable {vs : List Sample}

theorem finishChunk_offering (s : State) : finishChunk (offering vs s) = offering vs (finishChunk s) := by
  simp only [offering, finishChunk_withHost, finishChunk_smp, finishChunk_outAccept, finishChunk_rspAccept]

theorem finishCommand_offering (s : State) : finishCommand (offering vs s) = offering vs (finishCommand s) := by
  simp only [offering, finishCommand_withHost, finishCommand_smp, finishCommand_outAccept, finishCommand_rspAccept]

theorem move_offering {s t : State} (hm : Move s t) : Move (offering vs s) (offering vs t) := by
  cases hm with
  | fillNone hp hr => exact .fillNone (s := offering vs s) hp hr
  | fillTake hp hr hl v rest hs =>
    exact .fillTake (s := offering vs s) hp hr hl v (rest ++ vs) (congrArg (· ++ vs) hs)
  | fillPad hp hr hl => exact .fillPad (s := offering vs s) hp hr hl
  | encode hp => exact .encode (s := offering vs s) hp
  | emitByte hp ho a ha => exact .emitByte (s := offering vs s) hp ho a ha
  | emitLast hp ho a ha =>
    rw [← finishChunk_offering]
    exact .emitLast (s := offering vs s) hp ho a ha
  | drainNone hp hr => exact .drainNone (s := offering vs s) hp hr
  | drainTake hp hr v rest hs =>
    exact .drainTake (s := offering vs s) hp hr v (rest ++ vs) (congrArg (· ++ vs) hs)
  | respond hp a ha =>
    rw [← finishCommand_offering]
    exact .respond (s := offering vs s) hp a ha

theorem helps_offering : Helps (offering vs) where
  resetIn _ := rfl
  phase _ := rfl
  cmd _ := rfl
  take _ _ _ := rfl
  start d s := by
    obtain ⟨-, hsmp, -, hout, hrsp, -⟩ := startOf_channels d s
    rw [offering, startOf_withHost, offering, hsmp, hout, hrsp]
  move := move_offering

/-- A core that waits for a sample goes on with the first one offered. -/
theorem exists_move_offering {t : State} (hvs : vs ≠ []) (h : t.Waits .waitSample) : ∃ u, Move (offering vs t) u := by
  obtain ⟨v, rest, rfl⟩ := List.exists_cons_of_ne_nil hvs
  obtain ⟨hsmp, hwait⟩ := h
  have hoffer : (offering (v :: rest) t).smp = v :: rest := congrArg (· ++ v :: rest) hsmp
  obtain ⟨hp, hl⟩ | ⟨hp, hr⟩ := hwait
  · have hr : t.remain ≠ 0#24 := fun h0 => by simp [h0] at hl
    exact ⟨_, .fillTake (s := offering (v :: rest) t) hp hr hl v rest hoffer⟩
  · exact ⟨_, .drainTake (s := offering (v :: rest) t) hp hr v rest hoffer⟩

/-- Outside FILL and DRAIN no sample is what the core waits for. -/
theorem exists_fault_offering {t : State} (hp : ¬ (t.phase = .fill ∨ t.phase = .drain))
    (h : t.phase = .idle ∨ ∃ f, t.Waits f) : ∃ f, tick (offering vs t) = .fault f := by
  obtain hidle | ⟨f, hf⟩ := h
  · exact ⟨.waitCmd, (tick_eq_fault_iff ..).2 (.inr ⟨hidle, rfl⟩)⟩
  · refine ⟨f, (tick_eq_fault_iff ..).2 (.inl ?_)⟩
    cases f with
    | waitSample =>
      obtain ⟨-, ⟨hfill, -⟩ | ⟨hdrain, -⟩⟩ := hf
      · exact absurd (.inl hfill) hp
      · exact absurd (.inr hdrain) hp
    | _ => exact hf

/-- A core in FILL or DRAIN that waits, waits for a sample. -/
theorem waits_waitSample {t : State} (hp : t.phase = .fill ∨ t.phase = .drain) (h : t.phase = .idle ∨ ∃ f, t.Waits f) :
    t.Waits .waitSample := by
  obtain hidle | ⟨f, hf⟩ := h
  · simp [hidle] at hp
  · cases f with
    | waitSample => exact hf
    | _ => simp [hf.1] at hp

end Offer

/-- Settles O34: offering samples commutes with the moves, and lets exactly a wait for a sample go on. -/
theorem samplesMayBeOfferedAtAnyTime : Obligations.SamplesMayBeOfferedAtAnyTime := by
  intro s t vs hr hvs h
  have hend := everyStepRunsToIdleOrToTheHost s t hr h
  refine ⟨fun hp => ?_, fun hp => ?_⟩
  · exact helps_offering.step_again hr h (by rcases hp with hp | hp <;> simp [hp])
      (exists_move_offering hvs (waits_waitSample hp hend))
  · exact helps_offering.step_same hr h (exists_fault_offering hp hend)

end Sys2Proof.Machine
end

section
/-! PROOFS. What a packet does not depend on: the loop operands outside a loop (R72), and whatever came before it in the
stream (R161, R204). -/

namespace Sys2Proof.Machine

/-! ### The loop operands outside a loop -/

/-- The state with other loop operands in their registers. -/
def withLoop (ls le : LoopIdx) (s : State) : State :=
  { s with loopStart := ls, loopEnd := le }

/-- With no loop active the flag reads no loop operand (R144). -/
theorem flagOf_of_no_loop (last : Bool) (b : BlockIdx) (ls le ls' le' : LoopIdx) :
    flagOf last false b ls le = flagOf last false b ls' le' := by
  cases last <;> rfl

section Loop

variable {ls le : LoopIdx} {s t : State}

theorem loopTest_withLoop : loopTest (withLoop ls le s) = withLoop ls le (loopTest s) := by
  obtain ⟨hr, -⟩ | ⟨hr, hs, -⟩ | ⟨hr, hs, -⟩ := loopTest_cases s
  · simp [loopTest, withLoop, hr]
  · simp [loopTest, withLoop, hr, hs]
  · simp [loopTest, withLoop, hr, hs]

theorem tickEncode_withLoop (h : s.loopFlag = false) :
    tickEncode (withLoop ls le s) = withLoop ls le (tickEncode s) := by
  have he : encodedBlock (withLoop ls le s) = encodedBlock s := by
    have hflag := flagOf_of_no_loop s.last s.bidx ls le s.loopStart s.loopEnd
    simp only [encodedBlock, encodeBlock, withLoop, h, hflag]
  simp only [tickEncode, he]
  rfl

/-- In a packet with no loop active, a move commutes with a change of the loop operands. -/
theorem move_withLoop (hin : InPacket s) (hloop : s.loopFlag = false) (hm : Move s t) :
    Move (withLoop ls le s) (withLoop ls le t) := by
  cases hm with
  | fillNone hp hr => exact .fillNone (s := withLoop ls le s) hp hr
  | fillTake hp hr hl v rest hs => exact .fillTake (s := withLoop ls le s) hp hr hl v rest hs
  | fillPad hp hr hl => exact .fillPad (s := withLoop ls le s) hp hr hl
  | encode hp =>
    rw [← tickEncode_withLoop hloop]
    exact .encode (s := withLoop ls le s) hp
  | emitByte hp ho a ha => exact .emitByte (s := withLoop ls le s) hp ho a ha
  | emitLast hp ho a ha =>
    have hrun := hin.pkt (by simp [hp])
    have h := Move.emitLast (s := withLoop ls le s) hp ho a ha
    rw [finishChunk_of_pkt (by exact hrun)] at h ⊢
    rw [← loopTest_withLoop]
    exact h
  | drainNone hp hr => exact .drainNone (s := withLoop ls le s) hp hr
  | drainTake hp hr v rest hs => exact .drainTake (s := withLoop ls le s) hp hr v rest hs
  | respond hp a ha =>
    have hne : s.running ≠ .endStream := by simp [hin.pkt (by simp [hp])]
    have h := Move.respond (s := withLoop ls le s) hp a ha
    rw [finishCommand_of_ne_end (by exact hne)] at h ⊢
    exact h

/-- A run of a packet with no loop active commutes with a change of the loop operands. -/
theorem run_withLoop {ls₀ le₀ : LoopIdx} {s₀ : State} (h : InPacket s ∧ PacketFrame false le₀ ls₀ s₀ s) :
    runToWait (withLoop ls le s) = withLoop ls le (runToWait s) := by
  obtain ⟨f, hf⟩ := runToWait_stops s
  have hstop : tick (withLoop ls le (runToWait s)) = .fault f := by
    rw [tick_eq_fault_iff] at hf ⊢
    cases f <;> exact hf
  rw [run_commutes (g := withLoop ls le) (fun _ _ => move_packet)
    (fun _ _ ⟨hin, hframe⟩ hm => move_withLoop hin hframe.loopFlag hm) s h, runToWait_of_fault hstop]

end Loop

/-- Settles O21: with no loop active the moves commute with a change of the loop operands. -/
theorem loopOperandsAreReadOnlyInALoop : Obligations.LoopOperandsAreReadOnlyInALoop := by
  intro n le ls le' ls' s
  have hstart : startOf (some (.pkt false n le' ls')) s = withLoop ls' le' (startOf (some (.pkt false n le ls)) s) :=
    loopTest_withLoop (s := latchPkt false n le ls s)
  have hrun : runToWait (startOf (some (.pkt false n le' ls')) s) =
      withLoop ls' le' (runToWait (startOf (some (.pkt false n le ls)) s)) := by
    rw [hstart]
    exact run_withLoop ⟨inPacket_loopTest rfl, startOf_packetFrame false n le ls s⟩
  exact ⟨_, _, exec_eq .., exec_eq .., by rw [hrun]; rfl, hrun⟩

/-! ### What came before the packet -/

/-- The registers a PKT writes before its loops, with what the host offers and accepts. -/
def packetRegs (s : State) : State :=
  { s with
    emitOff := 0, lastHeader := 0, work := Work.cleared, last := false, cmd := [], trace := [], resetIn := false }

/-- The states `u` and `v` of one packet, begun in `s` and in `t`, agree on all that the rest of the packet reads: the
registers a PKT starts from, in FILL the block so far, in ENCODE the whole block, in EMIT its chunk (R161, R204). -/
structure SamePacket (s t u v : State) : Prop where
  regs : packetRegs u = packetRegs v
  trace : ∃ ts, u.trace = s.trace ++ ts ∧ v.trace = t.trace ++ ts
  inPacket : InPacket u
  sb : u.phase = .fill ∨ u.phase = .encode → u.work.sb = v.work.sb
  last : u.phase = .encode → u.last = v.last
  chunk : u.phase = .emit → u.work = v.work ∧ u.emitOff = v.emitOff

/-- Where the packet's registers agree, so does each one of them. -/
theorem eq_of_packetRegs_eq {α : Type} {u v : State} (h : packetRegs u = packetRegs v) (reg : State → α)
    (hreg : ∀ s, reg (packetRegs s) = reg s) : reg u = reg v := by
  rw [← hreg u, h, hreg]

theorem packetRegs_loopTest (s : State) :
    packetRegs (loopTest s) = packetRegs (loopTest { packetRegs s with phase := .idle }) := by
  obtain ⟨hr, -⟩ | ⟨hr, hs, -⟩ | ⟨hr, hs, -⟩ := loopTest_cases s
  · simp [loopTest, packetRegs, hr]
  · simp [loopTest, packetRegs, hr, hs]
  · simp [loopTest, packetRegs, hr, hs]

theorem loopTest_sb_of_fill {s : State} (h : (loopTest s).phase = .fill) : (loopTest s).work.sb = [] := by
  obtain ⟨-, e⟩ | ⟨-, -, e⟩ | ⟨-, -, e⟩ := loopTest_cases s <;> simp [e] at h ⊢

theorem loopTest_phase_ne_encode (s : State) : (loopTest s).phase ≠ .encode := by
  obtain ⟨-, e⟩ | ⟨-, -, e⟩ | ⟨-, -, e⟩ := loopTest_cases s <;> simp [e]

theorem emitBytes_of_pkt {s : State} (h : s.running = .pkt) : emitBytes s = chunkBytes s.work := by
  simp [emitBytes, h]

theorem responseWord_of_pkt {s : State} (h : s.running = .pkt) : responseWord s = 0#1 ++ s.nbytes := by
  simp [responseWord, h]

section Same

variable {s t u v x y : State}

namespace SamePacket

theorem reg {α : Type} (h : SamePacket s t u v) (reg : State → α) (hreg : ∀ s, reg (packetRegs s) = reg s) :
    reg u = reg v :=
  eq_of_packetRegs_eq h.regs reg hreg

theorem phase (h : SamePacket s t u v) : u.phase = v.phase :=
  h.reg State.phase fun _ => rfl

theorem running (h : SamePacket s t u v) : u.running = v.running :=
  h.reg State.running fun _ => rfl

theorem remain (h : SamePacket s t u v) : u.remain = v.remain :=
  h.reg State.remain fun _ => rfl

theorem nbytes (h : SamePacket s t u v) : u.nbytes = v.nbytes :=
  h.reg State.nbytes fun _ => rfl

theorem smp (h : SamePacket s t u v) : u.smp = v.smp :=
  h.reg State.smp fun _ => rfl

theorem outAccept (h : SamePacket s t u v) : u.outAccept = v.outAccept :=
  h.reg State.outAccept fun _ => rfl

theorem rspAccept (h : SamePacket s t u v) : u.rspAccept = v.rspAccept :=
  h.reg State.rspAccept fun _ => rfl

/-- A transfer both make keeps the transfers since the packets began the same. -/
theorem trace_append (h : SamePacket s t u v) (e : Transfer) :
    ∃ ts, u.trace ++ [e] = s.trace ++ ts ∧ v.trace ++ [e] = t.trace ++ ts := by
  obtain ⟨ts, hu, hv⟩ := h.trace
  exact ⟨ts ++ [e], by rw [hu, List.append_assoc], by rw [hv, List.append_assoc]⟩

/-- The loop tests read registers that agree, and empty the block where they lead to FILL. -/
theorem of_loopTest (hregs : packetRegs { x with phase := .idle } = packetRegs { y with phase := .idle })
    (htrace : ∃ ts, x.trace = s.trace ++ ts ∧ y.trace = t.trace ++ ts) (hrun : x.running = .pkt) :
    SamePacket s t (loopTest x) (loopTest y) := by
  have hloop : packetRegs (loopTest x) = packetRegs (loopTest y) := by
    rw [packetRegs_loopTest x, packetRegs_loopTest y]
    exact congrArg (fun r => packetRegs (loopTest r)) hregs
  have hphase : (loopTest x).phase = (loopTest y).phase :=
    eq_of_packetRegs_eq hloop State.phase fun _ => rfl
  refine ⟨hloop, by simpa using htrace, inPacket_loopTest hrun, fun hp => ?_, fun hp => ?_, fun hp => ?_⟩
  · obtain hp | hp := hp
    · rw [loopTest_sb_of_fill hp, loopTest_sb_of_fill (hphase ▸ hp)]
    · exact absurd hp (loopTest_phase_ne_encode x)
  · exact absurd hp (loopTest_phase_ne_encode x)
  · exact absurd hp (loopTest_phase_ne_emit x)

/-- The block both have taken is encoded to the same chunk and histories. -/
theorem encodedBlock_eq (h : SamePacket s t u v) (hp : u.phase = .encode) : encodedBlock u = encodedBlock v := by
  have hregs : encodedBlock { packetRegs u with work := u.work, last := u.last } =
      encodedBlock { packetRegs v with work := u.work, last := u.last } := by rw [h.regs]
  have hsb := h.sb (.inr hp)
  have hlast := h.last hp
  simpa only [encodedBlock, packetRegs, hsb, hlast] using hregs

theorem blockTake_eq (h : SamePacket s t u v) : blockTake u = blockTake v := by
  simp only [blockTake, h.remain]

/-- Both push the same chunk. -/
theorem emitBytes_eq (h : SamePacket s t u v) (hp : u.phase = .emit) : emitBytes u = emitBytes v := by
  have hrun := h.inPacket.pkt (by simp [hp])
  rw [emitBytes_of_pkt hrun, emitBytes_of_pkt (h.running ▸ hrun), (h.chunk hp).1]

/-- What one does the other does. -/
theorem move {u' : State} (h : SamePacket s t u v) (hm : Move u u') : ∃ v', Move v v' ∧ SamePacket s t u' v' := by
  have hin := move_inPacket hm h.inPacket
  cases hm with
  | fillNone hp hr =>
    exact ⟨_, .fillNone (h.phase ▸ hp) (h.remain ▸ hr), congrArg (fun r => { r with phase := .respond }) h.regs,
      h.trace, hin, by simp, by simp, by simp⟩
  | fillTake hp hr hl w rest hs =>
    have hsb := h.sb (.inl hp)
    exact ⟨_, .fillTake (h.phase ▸ hp) (h.remain ▸ hr) (by rwa [← hsb, ← h.blockTake_eq]) w rest (h.smp ▸ hs),
      congrArg (fun r => { r with smp := rest }) h.regs, h.trace_append _, hin, fun _ => congrArg (· ++ [w]) hsb,
      by simp [hp], by simp [hp]⟩
  | fillPad hp hr hl =>
    have hsb := h.sb (.inl hp)
    exact ⟨_, .fillPad (h.phase ▸ hp) (h.remain ▸ hr) (by rwa [← hsb, ← h.blockTake_eq]),
      congrArg (fun r => { r with phase := .encode, remain := r.remain - BitVec.ofNat 24 (blockTake r) }) h.regs,
      h.trace, hin, fun _ => by simp [hsb], fun _ => by simp [h.remain], by simp⟩
  | encode hp =>
    have he := h.encodedBlock_eq hp
    refine ⟨_, .encode (h.phase ▸ hp), ?_, h.trace, hin, by simp, by simp, fun _ => ⟨congrArg Encoded.work he, rfl⟩⟩
    rw [tickEncode, tickEncode, ← he]
    exact congrArg (fun r => { r with
      phase := .emit, stop := (encodedBlock u).stop, fh1 := BitVec.ofInt 16 (encodedBlock u).fh1
      fh2 := BitVec.ofInt 16 (encodedBlock u).fh2, hist1 := BitVec.ofInt 40 (encodedBlock u).hist1
      hist2 := BitVec.ofInt 40 (encodedBlock u).hist2 }) h.regs
  | emitByte hp ho a ha =>
    obtain ⟨hwork, hoff⟩ := h.chunk hp
    refine ⟨_, .emitByte (h.phase ▸ hp) (hoff ▸ ho) a (h.outAccept ▸ ha),
      congrArg (fun r => { r with outAccept := a }) h.regs, ?_, hin, by simp [hp], by simp [hp],
      fun _ => ⟨hwork, congrArg (· + 1) hoff⟩⟩
    rw [← h.emitBytes_eq hp, ← hoff]
    exact h.trace_append _
  | emitLast hp ho a ha =>
    obtain ⟨-, hoff⟩ := h.chunk hp
    have hrun := h.inPacket.pkt (by simp [hp])
    have hrun' : v.running = .pkt := h.running ▸ hrun
    refine ⟨_, .emitLast (h.phase ▸ hp) (hoff ▸ ho) a (h.outAccept ▸ ha), ?_⟩
    rw [finishChunk_of_pkt (by exact hrun), finishChunk_of_pkt (by exact hrun'), ← h.emitBytes_eq hp, ← hoff]
    exact of_loopTest (congrArg (fun r => { r with
      phase := .idle, outAccept := a, nbytes := r.nbytes + 16, bidx := r.bidx + 1 }) h.regs) (h.trace_append _) hrun
  | drainNone hp hr =>
    exact ⟨_, .drainNone (h.phase ▸ hp) (h.remain ▸ hr), congrArg (fun r => { r with phase := .respond }) h.regs,
      h.trace, hin, by simp, by simp, by simp⟩
  | drainTake hp hr w rest hs =>
    exact ⟨_, .drainTake (h.phase ▸ hp) (h.remain ▸ hr) w rest (h.smp ▸ hs),
      congrArg (fun r => { r with smp := rest, remain := r.remain - 1 }) h.regs, h.trace_append _, hin, by simp [hp],
      by simp [hp], by simp [hp]⟩
  | respond hp a ha =>
    have hrun := h.inPacket.pkt (by simp [hp])
    have hrun' : v.running = .pkt := h.running ▸ hrun
    refine ⟨_, .respond (h.phase ▸ hp) a (h.rspAccept ▸ ha), ?_, ?_, hin, by simp, by simp, by simp⟩
    · rw [finishCommand_of_ne_end (by simp [hrun]), finishCommand_of_ne_end (by simp [hrun'])]
      exact congrArg (fun r => { r with phase := .idle, running := .nothing, rspAccept := a }) h.regs
    · rw [finishCommand_trace, finishCommand_trace, responseWord_of_pkt hrun, responseWord_of_pkt hrun', ← h.nbytes]
      exact h.trace_append _

/-- Where one waits the other waits. -/
theorem fault {f : Fault} (h : SamePacket s t u v) (hf : tick u = .fault f) : ∃ g, tick v = .fault g := by
  have hidle : u.phase = .idle → ∃ g, tick v = .fault g := fun hp =>
    ⟨.waitCmd, (tick_eq_fault_iff ..).2 (.inr ⟨h.phase ▸ hp, rfl⟩)⟩
  obtain hw | ⟨hp, -⟩ := (tick_eq_fault_iff ..).1 hf
  · cases f with
    | waitCmd => exact hidle hw.1
    | waitSample =>
      refine ⟨.waitSample, (tick_eq_fault_iff ..).2 (.inl ⟨h.smp ▸ hw.1, ?_⟩)⟩
      obtain ⟨hp, hl⟩ | ⟨hp, hr⟩ := hw.2
      · exact .inl ⟨h.phase ▸ hp, by rwa [← h.sb (.inl hp), ← h.remain]⟩
      · exact .inr ⟨h.phase ▸ hp, h.remain ▸ hr⟩
    | waitOut => exact ⟨.waitOut, (tick_eq_fault_iff ..).2 (.inl ⟨h.phase ▸ hw.1, h.outAccept ▸ hw.2⟩)⟩
    | waitRsp => exact ⟨.waitRsp, (tick_eq_fault_iff ..).2 (.inl ⟨h.phase ▸ hw.1, h.rspAccept ▸ hw.2⟩)⟩
  · exact hidle hp

theorem run (h : SamePacket s t u v) : SamePacket s t (runToWait u) (runToWait v) :=
  run_simulates (fun _ _ _ h hm => h.move hm) (fun _ _ _ h hf => h.fault hf) u v h

end SamePacket

end Same

/-- Settles O20: the packet's operands, zeroed histories and empty block are all it starts from, and what the two
machines then write they write alike. -/
theorem packetsAreIndependent : Obligations.PacketsAreIndependent := by
  intro f n le ls s t hsmp hout hrsp
  have hregs : packetRegs { latchPkt f n le ls s with phase := .idle } =
      packetRegs { latchPkt f n le ls t with phase := .idle } := by
    simp only [packetRegs, latchPkt, hsmp, hout, hrsp]
  have hstart : SamePacket s t (startOf (some (.pkt f n le ls)) s) (startOf (some (.pkt f n le ls)) t) :=
    .of_loopTest hregs ⟨[], by simp, by simp⟩ rfl
  have hrun := hstart.run
  obtain ⟨ts, hs, ht⟩ := hrun.trace
  exact ⟨_, _, ts, exec_eq .., exec_eq .., hs, ht, hrun.smp, hrun.phase, hrun.reg State.fh1 fun _ => rfl,
    hrun.reg State.fh2 fun _ => rfl, hrun.reg State.hist1 fun _ => rfl, hrun.reg State.hist2 fun _ => rfl,
    hrun.reg State.bidx fun _ => rfl, hrun.nbytes, hrun.remain⟩

end Sys2Proof.Machine
end
